-- ==== Sys2Proof/Config.lean ====
section
/-! DEFINITION. What an implementation fixes: the parameter POS_W (spec/00_scope.md R7, spec/92_eei_decisions.md D1).
The spec leaves no result of an admitted operation open, so there is no free value here. -/

namespace Sys2Proof.Config

/-- The least admitted POS_W: the smallest width in which a shift by 2 leaves a sign bit (R7, D1). -/
def minPosW : Nat := 3

/-- The spec's default for POS_W, "when one concrete value is wanted" (R7, D1). -/
def defaultPosW : Nat := 32

end Sys2Proof.Config
end

