-- ==== Sys2Proof/Word.lean ====
section
/-! DEFINITION. The words of the block: a W-bit register word (W is the parameter POS_W), the 2-bit RawState, the 4-bit
TransitionIndex and the 2-bit ROM word (spec/00_scope.md R7, R8). Bit 0 is the least significant bit; signed values are
two's complement, so `BitVec.toInt` is the spec's signed_W and `BitVec.ofInt W` its wrap_W. -/

namespace Sys2Proof

/-- A W-bit register word (R7, R8). -/
abbrev Word (W : Nat) := BitVec W

/-- RawState: bit 0 is the level of pin A, bit 1 the level of pin B (R36, R53). -/
abbrev RawState := BitVec 2

/-- TransitionIndex: the old RawState in bits 3..2, the new one in bits 1..0 (R53). -/
abbrev TransitionIndex := BitVec 4

/-- A word of transition_table_rom: a 2-bit two's complement number (R31). -/
abbrev RomWord := BitVec 2

end Sys2Proof
end

