-- ==== Sys2Proof/Syntax.lean ====
section
/-! DEFINITION. The closed sets the spec names (latch modes, directions, classes of a transition) and the instructions:
one constructor of `Instr` for each row of spec/opcode_table.json. -/

namespace Sys2Proof

/-- The three latch modes (spec/43_latch_modes.md R94). -/
inductive LatchMode where
  | four3
  | four0
  | two03
deriving DecidableEq, Repr

/-- The three values of the derived condition Direction (spec/10_state.md R20). -/
inductive Direction where
  | noRotation
  | clockwise
  | counterClockwise
deriving DecidableEq, Repr

/-- The classes of a (old, new) pair of RawStates (spec/42_transition_table.md R76 to R91). -/
inductive TransitionClass where
  | unchanged
  | validClockwise
  | validCounterClockwise
  | invalid
deriving DecidableEq, Repr

/-- The rows of spec/opcode_table.json. The first eight are the values of the operation select `op` (spec/30_encoding.md
R50); the sixteen ROM rows are the entries of transition_table_rom, each a micro-operation of SAMPLE (R76 to R91). -/
inductive Instr where
  /-- NOP, `op = 000` (R118). -/
  | nop
  /-- CONSTRUCT, `op = 001`, with the LatchMode operand as it stands on `mode_in` (R61). -/
  | construct (modeIn : BitVec 2)
  /-- SAMPLE, `op = 010` (R66). -/
  | sample
  /-- GET_POSITION, `op = 011` (R104). -/
  | getPosition
  /-- SET_POSITION, `op = 100`, with its signed operand (R106). -/
  | setPosition (posIn : Int)
  /-- GET_DIRECTION, `op = 101` (R111). -/
  | getDirection
  /-- The reserved code `op = 110` (R120). -/
  | reserved6
  /-- The reserved code `op = 111` (R120). -/
  | reserved7
  | rom0
  | rom1
  | rom2
  | rom3
  | rom4
  | rom5
  | rom6
  | rom7
  | rom8
  | rom9
  | rom10
  | rom11
  | rom12
  | rom13
  | rom14
  | rom15
deriving DecidableEq, Repr

end Sys2Proof
end

