-- ==== Sys2Proof/WellFormed.lean ====
section
/-! DEFINITION. Which instructions have an encoding that the spec does not reserve, at a given width W. -/

namespace Sys2Proof

/-- The operand of SET_POSITION is a W-bit two's complement number (spec/30_encoding.md R51). -/
def PosOperand.wf (W : Nat) (v : Int) : Bool :=
  decide (-(2 : Int) ^ (W - 1) ≤ v) && decide (v < (2 : Int) ^ (W - 1))

/-- `i` can be presented at width `W` and none of its operands is a reserved code: CONSTRUCT's `mode_in` is not 00
(R51, R55) and SET_POSITION's operand fits the `pos_in` port. The reserved operation codes are instructions of the
table and well-formed as syntax; the machine refuses them (R120). -/
def Instr.wf (W : Nat) : Instr → Bool
  | .construct modeIn => modeIn != 0b00#2
  | .setPosition posIn => PosOperand.wf W posIn
  | .nop | .sample | .getPosition | .getDirection | .reserved6 | .reserved7 => true
  | .rom0 | .rom1 | .rom2 | .rom3 | .rom4 | .rom5 | .rom6 | .rom7 => true
  | .rom8 | .rom9 | .rom10 | .rom11 | .rom12 | .rom13 | .rom14 | .rom15 => true

end Sys2Proof
end

