-- ==== Sys2Proof/Decode.lean ====
section
/-! DEFINITION. The command word, the decoder and the encoder (spec/30_encoding.md R49 to R51, R53, R59). -/

namespace Sys2Proof

/-- The command word `cmd[W+4:0] = {pos_in[W-1:0], mode_in[1:0], op[2:0]}` (R49). -/
def cmdWord {W : Nat} (posIn : Word W) (modeIn : BitVec 2) (op : BitVec 3) : BitVec (W + 5) :=
  posIn ++ modeIn ++ op

/-- The port `op[2:0]`, bits `cmd[2:0]` (R49). -/
def cmdOp {W : Nat} (cmd : BitVec (W + 5)) : BitVec 3 := cmd.extractLsb' 0 3

/-- The port `mode_in[1:0]`, bits `cmd[4:3]` (R49). -/
def cmdModeIn {W : Nat} (cmd : BitVec (W + 5)) : BitVec 2 := cmd.extractLsb' 3 2

/-- The port `pos_in[W-1:0]`, bits `cmd[W+4:5]` (R49). -/
def cmdPosIn {W : Nat} (cmd : BitVec (W + 5)) : Word W := cmd.extractLsb' 5 W

/-- The operation a command word selects: total on `op`, the fields a format does not use are ignored (R49, R50, R59).
The last arm is `op = 111`, the one value left. -/
def decode {W : Nat} (cmd : BitVec (W + 5)) : Instr :=
  match (cmdOp cmd).toNat with
  | 0 => .nop
  | 1 => .construct (cmdModeIn cmd)
  | 2 => .sample
  | 3 => .getPosition
  | 4 => .setPosition (cmdPosIn cmd).toInt
  | 5 => .getDirection
  | 6 => .reserved6
  | _ => .reserved7

/-- The micro-operation of SAMPLE that a TransitionIndex selects (spec/42_transition_table.md R76 to R91).
The last arm is index 15, the one value left. -/
def decodeRom (idx : TransitionIndex) : Instr :=
  match idx.toNat with
  | 0 => .rom0
  | 1 => .rom1
  | 2 => .rom2
  | 3 => .rom3
  | 4 => .rom4
  | 5 => .rom5
  | 6 => .rom6
  | 7 => .rom7
  | 8 => .rom8
  | 9 => .rom9
  | 10 => .rom10
  | 11 => .rom11
  | 12 => .rom12
  | 13 => .rom13
  | 14 => .rom14
  | _ => .rom15

/-- The two code spaces of spec/opcode_table.json: the command word on the ports, and the TransitionIndex formed inside
SAMPLE ("match/mask apply to the 4-bit TransitionIndex, not to cmd"). -/
inductive Code (W : Nat) where
  | command (cmd : BitVec (W + 5))
  | romIndex (idx : TransitionIndex)
deriving DecidableEq, Repr

/-- The row a code selects, in either code space. -/
def decodeCode {W : Nat} : Code W → Instr
  | .command cmd => decode cmd
  | .romIndex idx => decodeRom idx

/-- The code of an instruction, with every ignored field 0 (R49, R50, R76 to R91). -/
def encode (W : Nat) : Instr → Code W
  | .nop => .command (cmdWord 0#W 0b00#2 0b000#3)
  | .construct modeIn => .command (cmdWord 0#W modeIn 0b001#3)
  | .sample => .command (cmdWord 0#W 0b00#2 0b010#3)
  | .getPosition => .command (cmdWord 0#W 0b00#2 0b011#3)
  | .setPosition posIn => .command (cmdWord (BitVec.ofInt W posIn) 0b00#2 0b100#3)
  | .getDirection => .command (cmdWord 0#W 0b00#2 0b101#3)
  | .reserved6 => .command (cmdWord 0#W 0b00#2 0b110#3)
  | .reserved7 => .command (cmdWord 0#W 0b00#2 0b111#3)
  | .rom0 => .romIndex 0b0000#4
  | .rom1 => .romIndex 0b0001#4
  | .rom2 => .romIndex 0b0010#4
  | .rom3 => .romIndex 0b0011#4
  | .rom4 => .romIndex 0b0100#4
  | .rom5 => .romIndex 0b0101#4
  | .rom6 => .romIndex 0b0110#4
  | .rom7 => .romIndex 0b0111#4
  | .rom8 => .romIndex 0b1000#4
  | .rom9 => .romIndex 0b1001#4
  | .rom10 => .romIndex 0b1010#4
  | .rom11 => .romIndex 0b1011#4
  | .rom12 => .romIndex 0b1100#4
  | .rom13 => .romIndex 0b1101#4
  | .rom14 => .romIndex 0b1110#4
  | .rom15 => .romIndex 0b1111#4

/-- The instruction the decoder reads from a command word given as a number, at the default width (R49). The block has
one command word and no second word, so `nbits` is not needed; the bits above it are 0 in `w`. A number that the
W+5 wires cannot carry is no command word. A ROM row's code is a TransitionIndex and never stands on these wires: `w` is
read as a command word whatever row it was taken from (log entry 6). -/
def decodeTableWord (_nbits w : Nat) : Option Instr :=
  if w < 2 ^ (Config.defaultPosW + 5) then some (decode (BitVec.ofNat (Config.defaultPosW + 5) w)) else none

end Sys2Proof
end

