-- ==== Sys2Proof/Machine/State.lean ====
section
/-! DEFINITION. The state of the machine as plain data, the reasons a step can stop, and the state right after hardware
reset (spec/10_state.md R10 to R29, spec/70_reset_and_hazards.md R139). -/

namespace Sys2Proof.Machine

/-- The pin inputs at one step: a level and a read-failed bit for each line (R18, R28). -/
structure Pins where
  /-- 1 is high. -/
  aLvl : Bool
  /-- 1 says that the read of line A failed at this step. -/
  aErr : Bool
  bLvl : Bool
  bErr : Bool
deriving DecidableEq, Repr

/-- The values on the input ports at one step (R28); `cmd` carries the ports `pos_in`, `mode_in` and `op` (R49). -/
structure Ports (W : Nat) where
  rst : Bool
  cmd : BitVec (W + 5)
  pins : Pins
deriving DecidableEq, Repr

/-- The five registers of a constructed decoder (R10). The sixth, `constructed`, is the tag of `State.decoder`. -/
structure Decoder (W : Nat) where
  /-- `fine_position` (R11). -/
  finePosition : Word W
  /-- `logical_position` (R12). -/
  logicalPosition : Word W
  /-- `logical_position_prev` (R13). -/
  logicalPositionPrev : Word W
  /-- `last_raw_state` (R16). -/
  lastRawState : RawState
  /-- `mode` (R15). -/
  mode : LatchMode
deriving DecidableEq, Repr

/-- What a step returns to the driver (R8 "result <- v", R155). -/
inductive Result (W : Nat) where
  | nothing
  | position (v : Word W)
  | direction (d : Direction)
deriving DecidableEq, Repr

/-- The spec has no fault (spec/60_exceptions.md R123, R138 "fault: none; stuck: none"), so no step can raise one. -/
inductive Fault
deriving DecidableEq, Repr

/-- Why the model has no transition for an input in a state: the closed list of R130, and the arm that is not modelled
yet. Every refusal is safe: nothing can be proved of a run that contains one. -/
inductive Refusal where
  /-- Raised by an arm of `exec` that has no meaning yet. Safe. No arm of this model raises it. -/
  | notModelled (mnemonic : String)
  /-- `reserved_op`: raised by the codes 110 and 111 of `op` (R120). Safe. -/
  | reservedOp
  /-- `not_constructed`: raised by SAMPLE, GET_POSITION, SET_POSITION, GET_DIRECTION (R121) and by SAMPLE's
  micro-operations (log entry 6) while no decoder is constructed. Safe. -/
  | notConstructed
  /-- `already_constructed`: raised by CONSTRUCT while a decoder is constructed (R64). Safe. -/
  | alreadyConstructed
  /-- `reserved_mode`: raised by CONSTRUCT with `mode_in = 00` (R63). Safe. -/
  | reservedMode
deriving DecidableEq, Repr

/-- The state: the block's registers (R10), the width they are held at, and the environment's inputs and the returned
value, which a step function of the state alone has to hold. -/
structure State where
  /-- The parameter POS_W (R7). No step writes it (log entry 1). -/
  posW : Nat
  /-- The block's registers; `none` is `constructed = 0`, where the other registers hold no value (R17, R25, R139). -/
  decoder : Option (Decoder posW)
  /-- The input ports at the coming step (R28). -/
  ports : Ports posW
  /-- What the last step returned (R155); the model's own field (log entry 5). -/
  result : Result posW
  /-- The input ports of the steps after the coming one, oldest first (R26); the model's own field (log entry 4). -/
  pending : List (Ports posW)
deriving DecidableEq, Repr

/-- The register `constructed` (R17). -/
def State.constructed (s : State) : Bool := s.decoder.isSome

/-- The ports when the driver invokes nothing and the lines are low: `rst = 0`, NOP (R118; log entry 4). -/
def Ports.idle (W : Nat) : Ports W :=
  { rst := false, cmd := 0#(W + 5), pins := { aLvl := false, aErr := false, bLvl := false, bErr := false } }

/-- Right after hardware reset at width `W`: no decoder is constructed (R139), nothing was returned, and the
environment has no input waiting. -/
def State.resetAt (W : Nat) : State :=
  { posW := W, decoder := none, ports := Ports.idle W, result := .nothing, pending := [] }

/-- The machine right after hardware reset, at the spec's default width (R139, R7). -/
def State.reset : State := State.resetAt Config.defaultPosW

end Sys2Proof.Machine
end

