-- ==== Sys2Proof/Machine/Ops.lean ====
section
/-! DEFINITION. The named operations over the state that the meanings share: reading and writing the decoder's registers,
the guard on `constructed`, hardware reset, taking the next port values, and fetching the operation. The block takes no
exception and returns from none (spec/60_exceptions.md R123, R131, R132), so there is no operation for either. -/

namespace Sys2Proof.Machine

/-- `asr(v, s)`: arithmetic shift right, the sign bit replicated (R8). -/
def asr {W : Nat} (v : Word W) (s : Nat) : Word W := v.sshiftRight s

/-- `sext_W(delta)` of a ROM word (R31). -/
def sextWord (W : Nat) (delta : RomWord) : Word W := delta.signExtend W

/-- `result <- r`, the value the step returns (R8). -/
def State.returning (s : State) (r : Result s.posW) : State := { s with result := r }

/-- Write the decoder's registers, with `constructed = 1` (R10, R17), and return `r`. -/
def State.commit (s : State) (d : Decoder s.posW) (r : Result s.posW) : State :=
  { s with decoder := some d, result := r }

/-- Put other levels and failure bits on the pin inputs of the coming step (R18, R26). -/
def State.withPins (s : State) (p : Pins) : State := { s with ports := { s.ports with pins := p } }

/-- The guard of every operation that needs a constructed decoder: `refuse(not_constructed)` while `constructed = 0`
(R121). -/
def whenConstructed (s : State) (k : Decoder s.posW → Host.Outcome State Fault Refusal) :
    Host.Outcome State Fault Refusal :=
  match s.decoder with
  | none => .refused .notConstructed
  | some d => k d

/-- The hardware reset transition: `constructed <- 0`, the other registers hold no value, nothing is returned and the
pins are not read (R139). -/
def hardReset (s : State) : State := { s with decoder := none, result := .nothing }

/-- The port values after these ones: the environment's next ones, or, when it has none waiting, those of a step in which
the driver invokes nothing (R26, R118; log entry 4). -/
def nextPorts (W : Nat) : List (Ports W) → Ports W
  | [] => Ports.idle W
  | p :: _ => p

/-- At the end of a step the environment's next port values stand on the ports (R26). -/
def takePorts (s : State) : State := { s with ports := nextPorts s.posW s.pending, pending := s.pending.tail }

/-- The operation on the ports of the coming step (R19, R50). -/
def fetch (s : State) : Instr := decode s.ports.cmd

/-- What the platform does while it holds the pins through the pin access escape hatch: it may change what later pin
reads return, and it is NOP on the decoder (spec/46_pins_nop_reserved.md R117). It has no operation code. -/
def borrowPins (p : Pins) (s : State) : State := s.withPins p

/-- `pos_out` carries `logical_position` in every step while constructed and has no meaning otherwise (R28, R121, D14). -/
def State.posOut (s : State) : Option (Word s.posW) := s.decoder.map fun d => d.logicalPosition

end Sys2Proof.Machine
end

