-- ==== Sys2Proof/Machine/Operands.lean ====
section
/-! DEFINITION. Operand forms: the pin reads and RawState (spec/20_memory.md R36 to R38), TransitionIndex (R53), the
LatchMode operand (spec/10_state.md R15, spec/43_latch_modes.md R94) and the override of the counter by the `pos_in`
operand (spec/44_position.md R106). -/

namespace Sys2Proof.Machine

/-- `PinRead(A) = a_lvl & ~a_err`: a failed read is low (R37). -/
def Pins.readA (p : Pins) : Bool := p.aLvl && !p.aErr

/-- `PinRead(B) = b_lvl & ~b_err` (R37). -/
def Pins.readB (p : Pins) : Bool := p.bLvl && !p.bErr

/-- `raw[1:0] = {PinRead(B), PinRead(A)}` (R36). -/
def Pins.raw (p : Pins) : RawState := BitVec.ofBool p.readB ++ BitVec.ofBool p.readA

/-- The pins as the nibble `{b_err, b_lvl, a_err, a_lvl}` (R38, R49). -/
def Pins.nibble (p : Pins) : BitVec 4 :=
  BitVec.ofBool p.bErr ++ BitVec.ofBool p.bLvl ++ BitVec.ofBool p.aErr ++ BitVec.ofBool p.aLvl

/-- The pins that a nibble `{b_err, b_lvl, a_err, a_lvl}` stands for (R49). -/
def Pins.ofNibble (n : BitVec 4) : Pins :=
  { aLvl := n.getLsbD 0, aErr := n.getLsbD 1, bLvl := n.getLsbD 2, bErr := n.getLsbD 3 }

/-- Both lines read without failure at the levels of RawState `r` (R58 SAMPLE_RAW). -/
def Pins.ofRaw (r : RawState) : Pins :=
  { aLvl := r.getLsbD 0, aErr := false, bLvl := r.getLsbD 1, bErr := false }

/-- TransitionIndex: the previous RawState in bits 3..2, the new one in bits 1..0 (R35, R53). -/
def transitionIndex (old new : RawState) : TransitionIndex := old ++ new

/-- The LatchMode that `mode[1:0]` encodes; 00 is reserved (R15). -/
def modeOfBits (b : BitVec 2) : Option LatchMode :=
  if b = 0b01#2 then some .four3
  else if b = 0b10#2 then some .four0
  else if b = 0b11#2 then some .two03
  else none

/-- The encoding of a LatchMode (R15): bit 0 is "latches at RawState 3", bit 1 "latches at RawState 0". -/
def modeBits : LatchMode → BitVec 2
  | .four3 => 0b01#2
  | .four0 => 0b10#2
  | .two03 => 0b11#2

/-- `shift(mode)`: 2 for FOUR3 and FOUR0, 1 for TWO03 (R94). -/
def modeShift : LatchMode → Nat
  | .four3 => 2
  | .four0 => 2
  | .two03 => 1

/-- The sub-latch phase: the low `s` bits of the counter (R106). -/
def phaseBits {W : Nat} (s : Nat) (fine : Word W) : Word W := fine &&& BitVec.ofNat W (2 ^ s - 1)

/-- The counter after an override: `(pos_in << s) | (fine_position & (2^s - 1))`, truncated to W bits (R52, R106). -/
def overrideFine {W : Nat} (s : Nat) (posIn fine : Word W) : Word W := (posIn <<< s) ||| phaseBits s fine

end Sys2Proof.Machine
end

