-- ==== Sys2Proof/Machine/Construct.lean ====
section
/-! DEFINITION. CONSTRUCT (spec/40_construct.md R60 to R64). -/

namespace Sys2Proof.Machine

/-- The registers CONSTRUCT writes: the three counters 0, the RawState of the lines, the mode operand (R61, R24). -/
def constructDecoder {W : Nat} (mode : LatchMode) (raw : RawState) : Decoder W :=
  { finePosition := BitVec.ofInt W 0
    logicalPosition := BitVec.ofInt W 0
    logicalPositionPrev := BitVec.ofInt W 0
    lastRawState := raw
    mode := mode }

/-- CONSTRUCT: refused `already_constructed` (R64), then `reserved_mode` (R63), in the order of R129 (g); else R61. -/
def execConstruct (modeIn : BitVec 2) (s : State) : Host.Outcome State Fault Refusal :=
  match s.decoder with
  | some _ => .refused .alreadyConstructed
  | none =>
    match modeOfBits modeIn with
    | none => .refused .reservedMode
    | some mode => .next (s.commit (constructDecoder mode s.ports.pins.raw) .nothing)

end Sys2Proof.Machine
end

