-- ==== Sys2Proof/Machine/Flags.lean ====
section
/-! DEFINITION. The one derived condition, Direction: there is no stored flag (spec/10_state.md R20). -/

namespace Sys2Proof.Machine

/-- Direction from the signed comparison of `logical_position_prev` with `logical_position`: greater is
CounterClockwise, less is Clockwise, equal is NoRotation (spec/45_direction.md R111). -/
def directionOf {W : Nat} (prev logical : Word W) : Direction :=
  if logical.slt prev then .counterClockwise
  else if prev.slt logical then .clockwise
  else .noRotation

/-- The code of a Direction on `dir_out` (R20, R54). -/
def directionBits : Direction → BitVec 2
  | .noRotation => 0b00#2
  | .clockwise => 0b01#2
  | .counterClockwise => 0b11#2

end Sys2Proof.Machine
end

