-- ==== Sys2Proof/Machine/Direction.lean ====
section
/-! DEFINITION. GET_DIRECTION and the output port `dir_out` (spec/45_direction.md R111 to R116, spec/10_state.md R28). -/

namespace Sys2Proof.Machine

/-- `logical_position_prev <- logical_position`, whatever the outcome of the comparison (R111). -/
def snapshot {W : Nat} (d : Decoder W) : Decoder W := { d with logicalPositionPrev := d.logicalPosition }

/-- GET_DIRECTION returns the Direction of the registers before the step and takes the snapshot (R111); refused while
not constructed (R121). -/
def execGetDirection (s : State) : Host.Outcome State Fault Refusal :=
  whenConstructed s fun d =>
    .next (s.commit (snapshot d) (.direction (directionOf d.logicalPositionPrev d.logicalPosition)))

/-- `dir_out` carries the Direction in a GET_DIRECTION step, from the state before it, and has no value in any other
step (R28, D14, U7). -/
def dirOut (s : State) : Option (BitVec 2) :=
  if s.ports.rst then none
  else
    match fetch s, s.decoder with
    | .getDirection, some d => some (directionBits (directionOf d.logicalPositionPrev d.logicalPosition))
    | _, _ => none

end Sys2Proof.Machine
end

