-- ==== Sys2Proof/Machine/Position.lean ====
section
/-! DEFINITION. GET_POSITION and SET_POSITION (spec/44_position.md R104 to R110). -/

namespace Sys2Proof.Machine

/-- GET_POSITION returns `logical_position` and writes no register (R104); refused while not constructed (R121). -/
def execGetPosition (s : State) : Host.Outcome State Fault Refusal :=
  whenConstructed s fun d => .next (s.returning (.position d.logicalPosition))

/-- The registers after an override with `pos_in` (R106). -/
def overridePosition {W : Nat} (posIn : Word W) (d : Decoder W) : Decoder W :=
  { d with
    finePosition := overrideFine (modeShift d.mode) posIn d.finePosition
    logicalPosition := posIn
    logicalPositionPrev := posIn }

/-- SET_POSITION (R106), with the operand on the W wires of `pos_in` (log entry 7); refused while not constructed
(R121). -/
def execSetPosition (posIn : Int) (s : State) : Host.Outcome State Fault Refusal :=
  whenConstructed s fun d => .next (s.commit (overridePosition (BitVec.ofInt s.posW posIn) d) .nothing)

end Sys2Proof.Machine
end

