-- ==== Sys2Proof/Machine/Latch.lean ====
section
/-! DEFINITION. latch_mode_mux and the latch policy of position_latch_register (spec/43_latch_modes.md R94 to R99). -/

namespace Sys2Proof.Machine

/-- `is_latch_point(mode, raw)`: the RawStates at which each mode latches (R94). -/
def isLatchPoint : LatchMode → RawState → Bool
  | .four3, raw => raw == 3#2
  | .four0, raw => raw == 0#2
  | .two03, raw => raw == 0#2 || raw == 3#2

/-- `latch_en = (mode[0] & (raw == 11)) | (mode[1] & (raw == 00))`, on the bits of the mode register (R96). -/
def latchEn (mode : BitVec 2) (raw : RawState) : Bool :=
  (mode.getLsbD 0 && raw == 0b11#2) || (mode.getLsbD 1 && raw == 0b00#2)

/-- `latch_val`: `asr(f, 1)` if `mode == 11`, else `asr(f, 2)` (R97). -/
def latchVal {W : Nat} (mode : BitVec 2) (f : Word W) : Word W :=
  if mode = 0b11#2 then asr f 1 else asr f 2

/-- The latch of a SAMPLE whose RawState changed: `logical_position <- latch_val` if `latch_en`, else it keeps its value
(R98). The counter has already been updated (R129 (f)). -/
def applyLatch {W : Nat} (raw : RawState) (d : Decoder W) : Decoder W :=
  if latchEn (modeBits d.mode) raw then
    { d with logicalPosition := latchVal (modeBits d.mode) d.finePosition }
  else d

end Sys2Proof.Machine
end

