-- ==== Sys2Proof/Machine/Rom.lean ====
section
/-! DEFINITION. transition_table_rom (spec/20_memory.md R30 to R34, spec/42_transition_table.md R75 to R93): its contents,
the lookup, the classes of its entries, and the meaning of each entry as a micro-operation of SAMPLE. -/

namespace Sys2Proof.Machine

/-- The 16 words in index order 0 to 15 (R32). A constant: no operation writes it and reset does not touch it (R33). -/
def romContents : List RomWord :=
  [0b00#2, 0b11#2, 0b01#2, 0b00#2,
   0b01#2, 0b00#2, 0b00#2, 0b11#2,
   0b11#2, 0b00#2, 0b00#2, 0b01#2,
   0b00#2, 0b01#2, 0b11#2, 0b00#2]

/-- `RomRead(idx)` (R31). Every index has an entry (R30), so the default is never taken. -/
def romRead (idx : TransitionIndex) : RomWord := romContents.getD idx.toNat 0b00#2

/-- The table packed into one constant, entry `i` at bits `2i+1..2i` (R32). -/
def romImage : BitVec 32 := 0x3443C11C#32

/-- The class of the pair (old, new), entry by entry (R76 to R91). -/
def transitionClass (idx : TransitionIndex) : TransitionClass :=
  match idx.toNat with
  | 0 | 5 | 10 | 15 => .unchanged
  | 2 | 4 | 11 | 13 => .validClockwise
  | 1 | 7 | 8 | 14 => .validCounterClockwise
  | _ => .invalid

/-- The count of SAMPLE: `fine_position <- fine_position + sext_W(delta)`, modulo 2^W (R66 step 2, R68). -/
def countDelta {W : Nat} (delta : RomWord) (d : Decoder W) : Decoder W :=
  { d with finePosition := d.finePosition + sextWord W delta }

/-- One entry of the table as a micro-operation of an admitted SAMPLE: it counts the entry's word and does nothing else;
"the other effects of SAMPLE (state register, latch) do not depend on the entry" (spec/42_transition_table.md, the rule
template). Without a decoder there is no counter, and SAMPLE is refused (R121; log entry 6). -/
def romEntry (delta : RomWord) (s : State) : Host.Outcome State Fault Refusal :=
  whenConstructed s fun d => .next (s.commit (countDelta delta d) .nothing)

/-- Entry 0: old 0, new 0; adds 0 (R76). -/
def execRom0 (s : State) : Host.Outcome State Fault Refusal := romEntry 0b00#2 s

/-- Entry 1: old 0, new 1; adds -1 (R77). -/
def execRom1 (s : State) : Host.Outcome State Fault Refusal := romEntry 0b11#2 s

/-- Entry 2: old 0, new 2; adds +1 (R78). -/
def execRom2 (s : State) : Host.Outcome State Fault Refusal := romEntry 0b01#2 s

/-- Entry 3: old 0, new 3; adds 0 (R79). -/
def execRom3 (s : State) : Host.Outcome State Fault Refusal := romEntry 0b00#2 s

/-- Entry 4: old 1, new 0; adds +1 (R80). -/
def execRom4 (s : State) : Host.Outcome State Fault Refusal := romEntry 0b01#2 s

/-- Entry 5: old 1, new 1; adds 0 (R81). -/
def execRom5 (s : State) : Host.Outcome State Fault Refusal := romEntry 0b00#2 s

/-- Entry 6: old 1, new 2; adds 0 (R82). -/
def execRom6 (s : State) : Host.Outcome State Fault Refusal := romEntry 0b00#2 s

/-- Entry 7: old 1, new 3; adds -1 (R83). -/
def execRom7 (s : State) : Host.Outcome State Fault Refusal := romEntry 0b11#2 s

/-- Entry 8: old 2, new 0; adds -1 (R84). -/
def execRom8 (s : State) : Host.Outcome State Fault Refusal := romEntry 0b11#2 s

/-- Entry 9: old 2, new 1; adds 0 (R85). -/
def execRom9 (s : State) : Host.Outcome State Fault Refusal := romEntry 0b00#2 s

/-- Entry 10: old 2, new 2; adds 0 (R86). -/
def execRom10 (s : State) : Host.Outcome State Fault Refusal := romEntry 0b00#2 s

/-- Entry 11: old 2, new 3; adds +1 (R87). -/
def execRom11 (s : State) : Host.Outcome State Fault Refusal := romEntry 0b01#2 s

/-- Entry 12: old 3, new 0; adds 0 (R88). -/
def execRom12 (s : State) : Host.Outcome State Fault Refusal := romEntry 0b00#2 s

/-- Entry 13: old 3, new 1; adds +1 (R89). -/
def execRom13 (s : State) : Host.Outcome State Fault Refusal := romEntry 0b01#2 s

/-- Entry 14: old 3, new 2; adds -1 (R90). -/
def execRom14 (s : State) : Host.Outcome State Fault Refusal := romEntry 0b11#2 s

/-- Entry 15: old 3, new 3; adds 0 (R91). -/
def execRom15 (s : State) : Host.Outcome State Fault Refusal := romEntry 0b00#2 s

end Sys2Proof.Machine
end

