-- ==== Sys2Proof/Machine/Sample.lean ====
section
/-! DEFINITION. SAMPLE (spec/41_sample.md R65 to R74). -/

namespace Sys2Proof.Machine

/-- What SAMPLE does to the registers when the lines give RawState `raw`: nothing when it is unchanged (R71); else the
count by the table (R67, R68), the state register (R69) and the latch (R70), in that order (R66). -/
def sampleStep {W : Nat} (raw : RawState) (d : Decoder W) : Decoder W :=
  if raw = d.lastRawState then d
  else
    let counted := countDelta (romRead (transitionIndex d.lastRawState raw)) d
    applyLatch raw { counted with lastRawState := raw }

/-- SAMPLE (R66); refused while not constructed (R121). -/
def execSample (s : State) : Host.Outcome State Fault Refusal :=
  whenConstructed s fun d => .next (s.commit (sampleStep s.ports.pins.raw d) .nothing)

end Sys2Proof.Machine
end

