-- ==== Sys2Proof/Machine/System.lean ====
section
/-! DEFINITION. NOP and the reserved operation codes (spec/46_pins_nop_reserved.md R118 to R120). -/

namespace Sys2Proof.Machine

/-- NOP writes no register, reads no pin and returns nothing; admitted in every state (R118). -/
def execNop (s : State) : Host.Outcome State Fault Refusal := .next (s.returning .nothing)

/-- `op = 110`: `refuse(reserved_op)` in every state (R120). -/
def execReserved6 (_s : State) : Host.Outcome State Fault Refusal := .refused .reservedOp

/-- `op = 111`: `refuse(reserved_op)` in every state (R120). -/
def execReserved7 (_s : State) : Host.Outcome State Fault Refusal := .refused .reservedOp

end Sys2Proof.Machine
end

