-- ==== Sys2Proof/Machine/Dispatch.lean ====
section
/-! DEFINITION. One arm for each row of spec/opcode_table.json, each a direct call of its meaning. -/

namespace Sys2Proof.Machine

-- The eight values of op (spec/30_encoding.md R50), then the sixteen entries of the transition ROM (R76 to R91).
def exec (i : Instr) (s : State) : Host.Outcome State Fault Refusal :=
  match i with
  | .nop => Sys2Proof.Machine.execNop s
  | .construct modeIn => Sys2Proof.Machine.execConstruct modeIn s
  | .sample => Sys2Proof.Machine.execSample s
  | .getPosition => Sys2Proof.Machine.execGetPosition s
  | .setPosition posIn => Sys2Proof.Machine.execSetPosition posIn s
  | .getDirection => Sys2Proof.Machine.execGetDirection s
  | .reserved6 => Sys2Proof.Machine.execReserved6 s
  | .reserved7 => Sys2Proof.Machine.execReserved7 s
  | .rom0 => Sys2Proof.Machine.execRom0 s
  | .rom1 => Sys2Proof.Machine.execRom1 s
  | .rom2 => Sys2Proof.Machine.execRom2 s
  | .rom3 => Sys2Proof.Machine.execRom3 s
  | .rom4 => Sys2Proof.Machine.execRom4 s
  | .rom5 => Sys2Proof.Machine.execRom5 s
  | .rom6 => Sys2Proof.Machine.execRom6 s
  | .rom7 => Sys2Proof.Machine.execRom7 s
  | .rom8 => Sys2Proof.Machine.execRom8 s
  | .rom9 => Sys2Proof.Machine.execRom9 s
  | .rom10 => Sys2Proof.Machine.execRom10 s
  | .rom11 => Sys2Proof.Machine.execRom11 s
  | .rom12 => Sys2Proof.Machine.execRom12 s
  | .rom13 => Sys2Proof.Machine.execRom13 s
  | .rom14 => Sys2Proof.Machine.execRom14 s
  | .rom15 => Sys2Proof.Machine.execRom15 s

end Sys2Proof.Machine
end

