-- ==== Sys2Proof/Machine/Step.lean ====
section
/-! DEFINITION. One step of the block: one rising edge of `clk` (spec/10_state.md R28, spec/92_eei_decisions.md D4). -/

namespace Sys2Proof.Machine

/-- One step: `rst = 1` takes the reset transition whatever `op` carries (R139, R129 (d)); otherwise the operation on
the ports runs. A completed step leaves the environment's next port values on the ports. -/
def step (s : State) : Host.Outcome State Fault Refusal :=
  if s.ports.rst then .next (takePorts (hardReset s))
  else
    match exec (fetch s) s with
    | .next t => .next (takePorts t)
    | .fault f => .fault f
    | .refused r => .refused r

/-- `s` with the command word `w` on the ports of the coming step and `rst = 0`, so that the next step runs it. The pins,
the registers and the waiting inputs stay. The block has one command word, so `nbits` is not needed (R49). -/
def State.withFetchWord (s : State) (_nbits w : Nat) : State :=
  { s with ports := { s.ports with rst := false, cmd := BitVec.ofNat (s.posW + 5) w } }

end Sys2Proof.Machine
end

