-- ==== Sys2Proof/Machine/Trace.lean ====
section
/-! DEFINITION. The trace lines of spec/30_encoding.md R57 as port values of one step, the pseudo-operations of R58, and
feeding a list of lines to the machine: a run is a finite sequence of steps the environment chooses
(spec/70_reset_and_hazards.md R155). -/

namespace Sys2Proof.Machine

/-- One line of a trace (R57); `a=`, `b=`, `aerr` and `berr` are the pins. -/
inductive TraceLine where
  | reset
  | nop
  | construct (mode : LatchMode) (pins : Pins)
  | sample (pins : Pins)
  | getPosition
  | setPosition (v : Int)
  | getDirection
deriving DecidableEq, Repr

/-- The pins of a line that reads none, "written `-`" (R57). -/
def Pins.low : Pins := { aLvl := false, aErr := false, bLvl := false, bErr := false }

/-- The port values of a line: its `op`, its operand and its pins (R57). -/
def TraceLine.ports (W : Nat) : TraceLine → Ports W
  | .reset => { rst := true, cmd := cmdWord 0#W 0b00#2 0b000#3, pins := Pins.low }
  | .nop => { rst := false, cmd := cmdWord 0#W 0b00#2 0b000#3, pins := Pins.low }
  | .construct m p => { rst := false, cmd := cmdWord 0#W (modeBits m) 0b001#3, pins := p }
  | .sample p => { rst := false, cmd := cmdWord 0#W 0b00#2 0b010#3, pins := p }
  | .getPosition => { rst := false, cmd := cmdWord 0#W 0b00#2 0b011#3, pins := Pins.low }
  | .setPosition v => { rst := false, cmd := cmdWord (BitVec.ofInt W v) 0b00#2 0b100#3, pins := Pins.low }
  | .getDirection => { rst := false, cmd := cmdWord 0#W 0b00#2 0b101#3, pins := Pins.low }

/-- `SAMPLE_RAW r` (R58). -/
def sampleRaw (r : RawState) : TraceLine := .sample (Pins.ofRaw r)

/-- `CONSTRUCT_RAW m r` (R58). -/
def constructRaw (m : LatchMode) (r : RawState) : TraceLine := .construct m (Pins.ofRaw r)

/-- `CW_CYCLE`, from RawState 0 (R58). -/
def cwCycle : List TraceLine := [sampleRaw 2#2, sampleRaw 3#2, sampleRaw 1#2, sampleRaw 0#2]

/-- `CCW_CYCLE`, from RawState 0 (R58). -/
def ccwCycle : List TraceLine := [sampleRaw 1#2, sampleRaw 3#2, sampleRaw 2#2, sampleRaw 0#2]

/-- `s` with the environment about to present exactly these lines, the first at the coming step, then idle ports. -/
def State.feed (lines : List TraceLine) (s : State) : State :=
  takePorts { s with pending := lines.map (TraceLine.ports s.posW) }

/-- The machine's run over the lines, one step a line. -/
def runTrace (lines : List TraceLine) (s : State) : Host.Outcome State Fault Refusal :=
  Sys2Proof.core.run lines.length (s.feed lines)

end Sys2Proof.Machine
end

