-- ==== Sys2Proof/Safety.lean ====
section
/-! DEFINITION. The terms the statements use: which inputs the machine admits, the registers read as values that do not
depend on the width's type, the counting of encoder steps, and the invariants. -/

namespace Sys2Proof.Machine

/-- The input of the coming step has a transition in this state: everything but the refusals of
spec/60_exceptions.md R130 (spec/70_reset_and_hazards.md R140, spec/46_pins_nop_reserved.md R121). -/
def admitted (s : State) : Bool :=
  s.ports.rst ||
    match fetch s with
    | .nop => true
    | .construct modeIn => !s.constructed && (modeOfBits modeIn).isSome
    | .sample | .getPosition | .setPosition _ | .getDirection => s.constructed
    | .reserved6 | .reserved7 => false
    | .rom0 | .rom1 | .rom2 | .rom3 | .rom4 | .rom5 | .rom6 | .rom7 => s.constructed
    | .rom8 | .rom9 | .rom10 | .rom11 | .rom12 | .rom13 | .rom14 | .rom15 => s.constructed

/-- `signed_W(fine_position)`; `none` while unconstructed. -/
def State.fine (s : State) : Option Int := s.decoder.map fun d => d.finePosition.toInt

/-- `signed_W(logical_position)`; `none` while unconstructed. -/
def State.logical (s : State) : Option Int := s.decoder.map fun d => d.logicalPosition.toInt

/-- `signed_W(logical_position_prev)`; `none` while unconstructed. -/
def State.prev (s : State) : Option Int := s.decoder.map fun d => d.logicalPositionPrev.toInt

/-- `last_raw_state`; `none` while unconstructed. -/
def State.lastRaw (s : State) : Option RawState := s.decoder.map fun d => d.lastRawState

/-- The mode; `none` while unconstructed. -/
def State.mode (s : State) : Option LatchMode := s.decoder.map fun d => d.mode

/-- The clockwise single steps 0→2, 2→3, 3→1, 1→0 (spec/41_sample.md R74). -/
def isClockwiseStep (old new : RawState) : Bool :=
  (old == 0#2 && new == 2#2) || (old == 2#2 && new == 3#2) || (old == 3#2 && new == 1#2) || (old == 1#2 && new == 0#2)

/-- The counter-clockwise single steps 0→1, 1→3, 3→2, 2→0 (R74). -/
def isCounterClockwiseStep (old new : RawState) : Bool :=
  (old == 0#2 && new == 1#2) || (old == 1#2 && new == 3#2) || (old == 3#2 && new == 2#2) || (old == 2#2 && new == 0#2)

/-- (Number of clockwise single steps) − (number of counter-clockwise single steps) of a run of samples (R74). -/
def netSteps (start : RawState) : List RawState → Int
  | [] => 0
  | r :: rest =>
    (if isClockwiseStep start r then 1 else if isCounterClockwiseStep start r then -1 else 0) + netSteps r rest

/-- The RawState after a run of samples. -/
def finalRaw (start : RawState) : List RawState → RawState
  | [] => start
  | r :: rest => finalRaw r rest

/-- Every sample changes at most one line: no two-bit change (spec/00_scope.md R9, valid transition). -/
def noInvalidStep (start : RawState) : List RawState → Bool
  | [] => true
  | r :: rest => (start == r || isClockwiseStep start r || isCounterClockwiseStep start r) && noInvalidStep r rest

/-- The RawState one clockwise step further: the order 0→2→3→1→0 (spec/42_transition_table.md R92). -/
def nextClockwise (r : RawState) : RawState :=
  if r = 0#2 then 2#2 else if r = 2#2 then 3#2 else if r = 3#2 then 1#2 else 0#2

/-- The RawStates of `n` clockwise steps from `r`. -/
def clockwiseWalk (r : RawState) : Nat → List RawState
  | 0 => []
  | n + 1 => nextClockwise r :: clockwiseWalk (nextClockwise r) n

/-- The RawState one counter-clockwise step further: the order 0→1→3→2→0 (R92). -/
def nextCounterClockwise (r : RawState) : RawState :=
  if r = 0#2 then 1#2 else if r = 1#2 then 3#2 else if r = 3#2 then 2#2 else 0#2

/-- The RawStates of `n` counter-clockwise steps from `r`. -/
def counterClockwiseWalk (r : RawState) : Nat → List RawState
  | 0 => []
  | n + 1 => nextCounterClockwise r :: counterClockwiseWalk (nextCounterClockwise r) n

/-- From `start` through these RawStates and back the same way to `start` (spec/43_latch_modes.md R103). -/
def outAndBack (start : RawState) (raws : List RawState) : List RawState :=
  raws ++ (start :: raws).dropLast.reverse

/-- The parity of the counter against the lines: bit 0 of `fine_position` with the levels of the two lines. A single step
changes one line and the counter by one, a two-bit change changes neither parity (spec/40_construct.md R62 (e)). -/
def phaseParity {W : Nat} (d : Decoder W) : Bool :=
  (d.finePosition.getLsbD 0).xor ((d.lastRawState.getLsbD 0).xor (d.lastRawState.getLsbD 1))

/-- `phaseParity` of a state; `none` while unconstructed. -/
def State.parity (s : State) : Option Bool := s.decoder.map fun d => phaseParity d

/-- POS_W is in its range (spec/00_scope.md R7). -/
abbrev WidthOk (s : State) : Prop := Config.minPosW ≤ s.posW

/-- What the last step returned is what the registers hold: a returned position is `logical_position`, and after a
returned direction the snapshot is `logical_position` (spec/44_position.md R104, spec/45_direction.md R111). -/
def ResultAgrees (s : State) : Prop :=
  match s.result with
  | .nothing => True
  | .position v => ∃ d, s.decoder = some d ∧ d.logicalPosition = v
  | .direction _ => ∃ d, s.decoder = some d ∧ d.logicalPositionPrev = d.logicalPosition

/-- Every SET_POSITION among these port values has an operand in range for every mode (spec/44_position.md R107 with s = 2,
the narrower of the two ranges). -/
def PortsInRange (W : Nat) (l : List (Ports W)) : Prop :=
  ∀ p ∈ l, ∀ v, decode p.cmd = .setPosition v → -(2 : Int) ^ (W - 3) ≤ v ∧ v < (2 : Int) ^ (W - 3)

/-- Every SET_POSITION the environment presents, now or later, has an operand in range for every mode. -/
def OperandsInRange (s : State) : Prop := PortsInRange s.posW (s.ports :: s.pending)

/-- A value in the range of latched positions for shift `k`: −2^(W−1−k) to 2^(W−1−k) − 1 (spec/45_direction.md R114). -/
def InLatchRange (W k : Nat) (v : Int) : Prop :=
  -(2 : Int) ^ (W - 1 - k) ≤ v ∧ v < (2 : Int) ^ (W - 1 - k)

/-- Both positions are in the range of latched values of the mode. -/
def PositionsInRange (s : State) : Prop :=
  ∀ d, s.decoder = some d →
    InLatchRange s.posW (modeShift d.mode) d.logicalPosition.toInt ∧
      InLatchRange s.posW (modeShift d.mode) d.logicalPositionPrev.toInt

/-- While the remembered RawState is a latch point of the mode, the visible position is the counter shifted down: the latch
was applied on arrival and nothing has moved it since (R98, R106, R107). -/
def LatchedAtRest (s : State) : Prop :=
  ∀ d, s.decoder = some d → isLatchPoint d.mode d.lastRawState = true →
    d.logicalPosition = asr d.finePosition (modeShift d.mode)

end Sys2Proof.Machine
end

