-- ==== Sys2Proof/Certificates/Slice0/Obligations.lean ====
section
/-! DEFINITION. The statements for the provers. Each follows the rules of spec/ that its docstring names; a statement that
rests on a choice of the model names the log entry. -/

open Sys2Proof Sys2Proof.Machine

/-! ## NOP, reserved codes, the unconstructed state -/

/-- R118: NOP writes no register, reads no pin, returns nothing, in every state; `pos_out` goes on carrying the position. -/
def Obligations.NopWritesNothing : Prop :=
  ∀ s : State,
    exec .nop s = .next { s with result := .nothing } ∧
      State.posOut { s with result := .nothing } = s.posOut ∧
      ∀ cmd : BitVec (s.posW + 5), cmdOp cmd = 0b000#3 → decode cmd = .nop

/-- R120: `op = 110` and `op = 111` are refused with `reserved_op` in every state, whatever the other fields. -/
def Obligations.ReservedCodesAreRefused : Prop :=
  ∀ s : State,
    exec .reserved6 s = .refused .reservedOp ∧
      exec .reserved7 s = .refused .reservedOp ∧
      ∀ cmd : BitVec (s.posW + 5), cmdOp cmd = 0b110#3 ∨ cmdOp cmd = 0b111#3 →
        exec (decode cmd) s = .refused .reservedOp

/-- R121: while `constructed = 0` the four operations that need a decoder are refused, the outputs have no value, and
NOP, CONSTRUCT with a legal mode and hardware reset are admitted. -/
def Obligations.UnconstructedDecoderRefusesItsOperations : Prop :=
  ∀ s : State, s.constructed = false →
    exec .sample s = .refused .notConstructed ∧
      exec .getPosition s = .refused .notConstructed ∧
      (∀ v, exec (.setPosition v) s = .refused .notConstructed) ∧
      exec .getDirection s = .refused .notConstructed ∧
      s.posOut = none ∧ dirOut s = none ∧
      (∃ t, exec .nop s = .next t) ∧
      (∀ m, m = 0b01#2 ∨ m = 0b10#2 ∨ m = 0b11#2 → ∃ t, exec (.construct m) s = .next t) ∧
      ∃ t, step { s with ports := { s.ports with rst := true } } = .next t

/-- The model's reading (log entry 6) of the sixteen ROM rows without a decoder: they are refused as the SAMPLE they are
a part of is. -/
def Obligations.RomEntriesNeedADecoder : Prop :=
  ∀ (s : State) (idx : TransitionIndex), s.constructed = false →
    exec (decodeRom idx) s = .refused .notConstructed

/-- R130, R140: a step completes exactly when its input is admitted. -/
def Obligations.StepCompletesExactlyWhenAdmitted : Prop :=
  ∀ s : State, (∃ t, step s = .next t) ↔ admitted s = true

/-- R129 (g), R130: the four reasons of a refused step, each with the inputs it is given for. The four conditions exclude
each other, and there is no other reason. -/
def Obligations.RefusalReasonsAndTheirOrder : Prop :=
  ∀ s : State, s.ports.rst = false →
    (step s = .refused .reservedOp ↔ cmdOp s.ports.cmd = 0b110#3 ∨ cmdOp s.ports.cmd = 0b111#3) ∧
      (step s = .refused .notConstructed ↔
        s.constructed = false ∧ 2 ≤ (cmdOp s.ports.cmd).toNat ∧ (cmdOp s.ports.cmd).toNat ≤ 5) ∧
      (step s = .refused .alreadyConstructed ↔ s.constructed = true ∧ cmdOp s.ports.cmd = 0b001#3) ∧
      (step s = .refused .reservedMode ↔
        s.constructed = false ∧ cmdOp s.ports.cmd = 0b001#3 ∧ cmdModeIn s.ports.cmd = 0b00#2) ∧
      ∀ r, step s = .refused r →
        r = .reservedOp ∨ r = .notConstructed ∨ r = .alreadyConstructed ∨ r = .reservedMode

/-- R119: any number of NOP steps before an operation leaves its outcome unchanged, its next state and its refusal. -/
def Obligations.NopStepsDoNotMatter : Prop :=
  ∀ (s : State) (n : Nat) (line : TraceLine),
    runTrace (List.replicate n TraceLine.nop ++ [line]) s = runTrace [line] s

/-! ## CONSTRUCT -/

/-- R24: the registers after CONSTRUCT with each of the three modes, from every unconstructed state, for all pins. -/
def Obligations.ConstructInitialisesTheRegisters : Prop :=
  ∀ (s : State) (modeIn : BitVec 2) (mode : LatchMode), s.constructed = false →
    (modeIn = 0b01#2 ∧ mode = .four3) ∨ (modeIn = 0b10#2 ∧ mode = .four0) ∨ (modeIn = 0b11#2 ∧ mode = .two03) →
    exec (.construct modeIn) s = .next
      { s with
        decoder := some
          { finePosition := 0#s.posW
            logicalPosition := 0#s.posW
            logicalPositionPrev := 0#s.posW
            lastRawState :=
              BitVec.ofBool (s.ports.pins.bLvl && !s.ports.pins.bErr) ++
                BitVec.ofBool (s.ports.pins.aLvl && !s.ports.pins.aErr)
            mode := mode }
        result := .nothing }

/-- R64: CONSTRUCT while constructed is refused, whatever its operand; after a hardware reset it is not. -/
def Obligations.SecondConstructIsRefused : Prop :=
  ∀ s : State, s.constructed = true →
    (∀ m, exec (.construct m) s = .refused .alreadyConstructed) ∧
      ∀ m, m = 0b01#2 ∨ m = 0b10#2 ∨ m = 0b11#2 → ∃ t, exec (.construct m) (hardReset s) = .next t

/-- R63: CONSTRUCT with `mode_in = 00` is refused with `reserved_mode`; the three other codes are admitted. -/
def Obligations.ReservedModeIsRefused : Prop :=
  ∀ s : State, s.constructed = false →
    exec (.construct 0b00#2) s = .refused .reservedMode ∧
      ∀ m, m = 0b01#2 ∨ m = 0b10#2 ∨ m = 0b11#2 → ∃ t, exec (.construct m) s = .next t

/-! ## SAMPLE -/

/-- R66: the pseudocode of SAMPLE as one next state, from every constructed state, for all pins. -/
def Obligations.SampleFollowsItsPseudocode : Prop :=
  ∀ (s : State) (d : Decoder s.posW) (raw : RawState) (f : Word s.posW), s.decoder = some d →
    raw = BitVec.ofBool (s.ports.pins.bLvl && !s.ports.pins.bErr) ++
      BitVec.ofBool (s.ports.pins.aLvl && !s.ports.pins.aErr) →
    f = d.finePosition + (romRead (d.lastRawState ++ raw)).signExtend s.posW →
    exec .sample s = .next
        { s with
          decoder := some
            (if raw = d.lastRawState then d
            else
              { d with
                finePosition := f
                lastRawState := raw
                logicalPosition :=
                  if isLatchPoint d.mode raw then f.sshiftRight (modeShift d.mode) else d.logicalPosition })
          result := .nothing } ∧
      ∀ cmd : BitVec (s.posW + 5), cmdOp cmd = 0b010#3 → decode cmd = .sample

/-- R71: SAMPLE writes no register when the RawState is the remembered one; the latch is not applied again. -/
def Obligations.UnchangedSampleWritesNothing : Prop :=
  ∀ (s : State) (d : Decoder s.posW), s.decoder = some d → s.ports.pins.raw = d.lastRawState →
    exec .sample s = .next { s with result := .nothing }

/-- R68: the counter moves by the table's delta and wraps at both ends of the W-bit range. -/
def Obligations.SampleCounterWraps : Prop :=
  ∀ (s : State) (d : Decoder s.posW) (delta : Int), Config.minPosW ≤ s.posW → s.decoder = some d →
    delta = (romRead (d.lastRawState ++ s.ports.pins.raw)).toInt →
    (delta = -1 ∨ delta = 0 ∨ delta = 1) ∧
      ∃ t, exec .sample s = .next t ∧ t.posW = s.posW ∧
        t.fine = some
          (if delta = 1 ∧ d.finePosition.toInt = 2 ^ (s.posW - 1) - 1 then -2 ^ (s.posW - 1)
          else if delta = -1 ∧ d.finePosition.toInt = -2 ^ (s.posW - 1) then 2 ^ (s.posW - 1) - 1
          else d.finePosition.toInt + delta)

/-- R97, R98: the mux `latch_val` and the latch rule of SAMPLE, with `latch_en` written out as the gates of R96. -/
def Obligations.SampleLatchRule : Prop :=
  ∀ (s : State) (d : Decoder s.posW) (raw : RawState) (en : Bool), s.decoder = some d → raw = s.ports.pins.raw →
    en = (((modeBits d.mode).getLsbD 0 && raw == 0b11#2) || ((modeBits d.mode).getLsbD 1 && raw == 0b00#2)) →
    ∃ d' : Decoder s.posW, exec .sample s = .next { s with decoder := some d', result := .nothing } ∧
      d'.logicalPosition =
        if raw ≠ d.lastRawState ∧ en = true then
          (if modeBits d.mode = 0b11#2 then d'.finePosition.sshiftRight 1 else d'.finePosition.sshiftRight 2)
        else d.logicalPosition

/-- R70, R100, R101 (first part): a latched position is the counter divided by the step factor and rounded down, so the
counter lies in the step factor's interval above it. -/
def Obligations.LatchedPositionIsTheFloor : Prop :=
  ∀ (s : State) (d : Decoder s.posW) (factor : Int), s.decoder = some d →
    s.ports.pins.raw ≠ d.lastRawState → isLatchPoint d.mode s.ports.pins.raw = true →
    factor = (match d.mode with | .four3 => 4 | .four0 => 4 | .two03 => 2) →
    ∃ t f l, exec .sample s = .next t ∧ t.fine = some f ∧ t.logical = some l ∧
      l = Int.fdiv f factor ∧ factor * l ≤ f ∧ f ≤ factor * l + factor - 1

/-- R16, R27 (c), R69: after every SAMPLE and every CONSTRUCT `last_raw_state` is the sampled RawState. -/
def Obligations.SampleAndConstructRememberTheLines : Prop :=
  ∀ s : State,
    (s.constructed = true → ∃ t, exec .sample s = .next t ∧ t.lastRaw = some s.ports.pins.raw) ∧
      (∀ m t, exec (.construct m) s = .next t → t.lastRaw = some s.ports.pins.raw)

/-- R72: when both lines changed the counter stands still, the state register follows and the latch still applies. -/
def Obligations.TwoBitChangeCountsNothingAndStillLatches : Prop :=
  ∀ (s : State) (d : Decoder s.posW), s.decoder = some d → s.ports.pins.raw = ~~~ d.lastRawState →
    exec .sample s = .next
      { s with
        decoder := some
          { d with
            lastRawState := ~~~ d.lastRawState
            logicalPosition :=
              if isLatchPoint d.mode (~~~ d.lastRawState) then asr d.finePosition (modeShift d.mode)
              else d.logicalPosition }
        result := .nothing }

/-- R66, R75: a SAMPLE whose RawState changed is its table entry's micro-operation, then the state register, then the
latch of the counter just updated. -/
def Obligations.SampleIsItsRomEntryThenTheLatch : Prop :=
  ∀ (s : State) (d : Decoder s.posW), s.decoder = some d → s.ports.pins.raw ≠ d.lastRawState →
    ∃ c : Decoder s.posW,
      exec (decodeRom (transitionIndex d.lastRawState s.ports.pins.raw)) s =
          .next { s with decoder := some c, result := .nothing } ∧
        exec .sample s = .next
          { s with
            decoder := some (applyLatch s.ports.pins.raw { c with lastRawState := s.ports.pins.raw })
            result := .nothing }

/-- R93 (f), R92: a SAMPLE that sees one line change adds 1 when, A having changed, the new levels are equal, or, B having
changed, they differ; otherwise it takes 1 away. -/
def Obligations.CountFollowsTheLineThatMoved : Prop :=
  ∀ (s : State) (d : Decoder s.posW) (na nb oa ob : Bool), s.decoder = some d →
    na = s.ports.pins.raw.getLsbD 0 → nb = s.ports.pins.raw.getLsbD 1 →
    oa = d.lastRawState.getLsbD 0 → ob = d.lastRawState.getLsbD 1 → (na ≠ oa ↔ nb = ob) →
    ∃ d' : Decoder s.posW, exec .sample s = .next { s with decoder := some d', result := .nothing } ∧
      d'.finePosition =
        if (na ≠ oa ∧ na = nb) ∨ (nb ≠ ob ∧ nb ≠ na) then d.finePosition + BitVec.ofInt s.posW 1
        else d.finePosition - BitVec.ofInt s.posW 1

/-- R37, R151: an operation that reads the pins depends on them only through level-and-not-failed, so a failed read acts
as low. -/
def Obligations.FailedReadActsAsLow : Prop :=
  ∀ (s t : State) (p q : Pins) (i : Instr), i = .sample ∨ (∃ m, i = .construct m) →
    (p.aLvl && !p.aErr) = (q.aLvl && !q.aErr) → (p.bLvl && !p.bErr) = (q.bLvl && !q.bErr) →
    exec i (s.withPins p) = .next t → exec i (s.withPins q) = .next (t.withPins q)

/-- R38: only CONSTRUCT and SAMPLE read the pins; every other operation does the same under any pins. -/
def Obligations.OtherOperationsDoNotReadThePins : Prop :=
  ∀ (s t : State) (p : Pins) (r : Refusal) (i : Instr), i ≠ .sample → (∀ m, i ≠ .construct m) →
    (exec i s = .next t → exec i (s.withPins p) = .next (t.withPins p)) ∧
      (exec i s = .refused r → exec i (s.withPins p) = .refused r)

/-- R146: what one SAMPLE counts when the encoder moved 1, 2, 3 or 4 single steps since the last one. -/
def Obligations.MissedStepsAreMiscounted : Prop :=
  ∀ (s : State) (d : Decoder s.posW) (n : Nat) (seen : Int), s.decoder = some d → 1 ≤ n → n ≤ 4 →
    seen = (if n = 1 then 1 else if n = 3 then -1 else 0) →
    (s.ports.pins.raw = finalRaw d.lastRawState (clockwiseWalk d.lastRawState n) →
        ∃ d' : Decoder s.posW, exec .sample s = .next { s with decoder := some d', result := .nothing } ∧
          d'.finePosition = d.finePosition + BitVec.ofInt s.posW seen) ∧
      (s.ports.pins.raw = finalRaw d.lastRawState (counterClockwiseWalk d.lastRawState n) →
        ∃ d' : Decoder s.posW, exec .sample s = .next { s with decoder := some d', result := .nothing } ∧
          d'.finePosition = d.finePosition - BitVec.ofInt s.posW seen)

/-! ## Runs of SAMPLEs -/

/-- R74: over any run of SAMPLEs, with any pins, the counter changes by clockwise minus counter-clockwise single steps,
modulo 2^W (so without the premise that nothing wraps), and the snapshot and the mode stand still. -/
def Obligations.SamplesCountTheNetSteps : Prop :=
  ∀ (s : State) (d : Decoder s.posW) (pins : List Pins), s.decoder = some d →
    ∃ (d' : Decoder s.posW) (r : Result s.posW),
      runTrace (pins.map TraceLine.sample) s = .next (State.feed [] { s with decoder := some d', result := r }) ∧
        d'.finePosition =
          d.finePosition + BitVec.ofInt s.posW (netSteps d.lastRawState (pins.map Pins.raw)) ∧
        d'.lastRawState = finalRaw d.lastRawState (pins.map Pins.raw) ∧
        d'.logicalPositionPrev = d.logicalPositionPrev ∧ d'.mode = d.mode

/-- R93 (c), R103, R149: samples that go out any way, two-bit changes among them, and come back the same way restore the
counter and the remembered RawState. -/
def Obligations.OutAndBackCancels : Prop :=
  ∀ (s : State) (d : Decoder s.posW) (raws : List RawState), s.decoder = some d →
    ∃ t, runTrace ((outAndBack d.lastRawState raws).map sampleRaw) s = .next t ∧
      t.fine = s.fine ∧ t.lastRaw = s.lastRaw

/-- R103: from a latch point just latched, valid steps that leave it and return the same way latch the same value. -/
def Obligations.ReversalKeepsTheLatchedValue : Prop :=
  ∀ (s : State) (d : Decoder s.posW) (raws : List RawState), s.decoder = some d →
    isLatchPoint d.mode d.lastRawState = true → d.logicalPosition = asr d.finePosition (modeShift d.mode) →
    ∃ t, runTrace ((outAndBack d.lastRawState raws).map sampleRaw) s = .next t ∧ t.logical = s.logical

/-- R101 (second part): while every transition is valid and nothing can wrap, the two counters drift no further apart than
the bounds of the rule, from any state in which the counter lies in the position's interval. -/
def Obligations.CountersStayWithinTheDriftBounds : Prop :=
  ∀ (s : State) (d : Decoder s.posW) (pins : List Pins), s.decoder = some d →
    2 ^ modeShift d.mode * d.logicalPosition.toInt ≤ d.finePosition.toInt →
    d.finePosition.toInt ≤ 2 ^ modeShift d.mode * d.logicalPosition.toInt + 2 ^ modeShift d.mode - 1 →
    noInvalidStep d.lastRawState (pins.map Pins.raw) = true →
    -2 ^ (s.posW - 1) ≤ d.finePosition.toInt - pins.length →
    d.finePosition.toInt + pins.length < 2 ^ (s.posW - 1) →
    ∃ t f l, runTrace (pins.map TraceLine.sample) s = .next t ∧ t.fine = some f ∧ t.logical = some l ∧
      match d.mode with
      | .four3 => 4 * l - 3 ≤ f ∧ f ≤ 4 * l + 6
      | .four0 => 4 * l - 3 ≤ f ∧ f ≤ 4 * l + 6
      | .two03 => 2 * l - 1 ≤ f ∧ f ≤ 2 * l + 2

/-- R102: the first latch after CONSTRUCT at any RawState, `c` steps away in either direction, loads the floor of ±c over
the step factor. The width is at least 4, so that a count of 4 is representable. -/
def Obligations.FirstLatchAfterConstruct : Prop :=
  ∀ (s : State) (mode : LatchMode) (r : RawState) (c : Nat), s.constructed = false → 4 ≤ s.posW → 1 ≤ c → c ≤ 4 →
    (isLatchPoint mode (finalRaw r (clockwiseWalk r c)) = true →
        (∀ j, 1 ≤ j → j < c → isLatchPoint mode (finalRaw r (clockwiseWalk r j)) = false) →
        ∃ t, runTrace (constructRaw mode r :: (clockwiseWalk r c).map sampleRaw) s = .next t ∧
          t.logical = some (Int.fdiv c (2 ^ modeShift mode))) ∧
      (isLatchPoint mode (finalRaw r (counterClockwiseWalk r c)) = true →
        (∀ j, 1 ≤ j → j < c → isLatchPoint mode (finalRaw r (counterClockwiseWalk r j)) = false) →
        ∃ t, runTrace (constructRaw mode r :: (counterClockwiseWalk r c).map sampleRaw) s = .next t ∧
          t.logical = some (Int.fdiv (-c) (2 ^ modeShift mode)))

/-- R108 (c), (d): after an override with an operand in range, every later latch loads what it would have loaded without
the override plus `v − floor(f0 / 2^s)`, where `f0` was the counter just before. Both runs see the same pins, end in a latch,
and cannot wrap. -/
def Obligations.OverrideShiftsEveryLaterLatch : Prop :=
  ∀ (s s0 : State) (d : Decoder s.posW) (v : Int) (pins : List Pins) (last : Pins), s.decoder = some d →
    Config.minPosW ≤ s.posW → InLatchRange s.posW (modeShift d.mode) v → exec (.setPosition v) s = .next s0 →
    last.raw ≠ finalRaw d.lastRawState (pins.map Pins.raw) → isLatchPoint d.mode last.raw = true →
    -2 ^ (s.posW - 1) ≤ d.finePosition.toInt - (pins.length + 1) →
    d.finePosition.toInt + (pins.length + 1) < 2 ^ (s.posW - 1) →
    -2 ^ (s.posW - 1) ≤ 2 ^ modeShift d.mode * v - (pins.length + 1) →
    2 ^ modeShift d.mode * v + 2 ^ modeShift d.mode + (pins.length + 1) ≤ 2 ^ (s.posW - 1) →
    ∃ a b l, runTrace ((pins ++ [last]).map TraceLine.sample) s = .next a ∧
      runTrace ((pins ++ [last]).map TraceLine.sample) s0 = .next b ∧
      a.logical = some l ∧ b.logical = some (l + (v - Int.fdiv d.finePosition.toInt (2 ^ modeShift d.mode)))

/-! ## GET_POSITION and SET_POSITION -/

/-- R104: GET_POSITION returns `logical_position`, which stands on `pos_out`, and writes no register. -/
def Obligations.GetPositionReturnsTheLatchedPosition : Prop :=
  ∀ (s : State) (d : Decoder s.posW), s.decoder = some d →
    exec .getPosition s = .next { s with result := .position d.logicalPosition } ∧
      s.posOut = some d.logicalPosition ∧
      ∀ cmd : BitVec (s.posW + 5), cmdOp cmd = 0b011#3 → decode cmd = .getPosition

/-- R106: SET_POSITION writes both positions with `pos_in` and the counter with `pos_in` shifted up over the low bits;
Direction evaluates to NoRotation on two equal positions. -/
def Obligations.SetPositionOverridesThePositions : Prop :=
  ∀ (s : State) (d : Decoder s.posW) (cmd : BitVec (s.posW + 5)) (k : Nat), s.decoder = some d →
    cmdOp cmd = 0b100#3 → k = (match d.mode with | .four3 => 2 | .four0 => 2 | .two03 => 1) →
    decode cmd = .setPosition (cmdPosIn cmd).toInt ∧
      exec (.setPosition (cmdPosIn cmd).toInt) s = .next
        { s with
          decoder := some
            { d with
              finePosition := (cmdPosIn cmd <<< k) ||| ((d.finePosition.setWidth k).setWidth s.posW)
              logicalPosition := cmdPosIn cmd
              logicalPositionPrev := cmdPosIn cmd }
          result := .nothing } ∧
      directionOf (cmdPosIn cmd) (cmdPosIn cmd) = .noRotation

/-- R107: for an operand in range the counter is `2^s · v + low` and shifts back to it; out of range it shifts back to the
sign-extended low bits of the operand, another value, while both positions hold the operand. -/
def Obligations.OverrideOperandRange : Prop :=
  ∀ (s : State) (d : Decoder s.posW) (v : Int) (k : Nat), Config.minPosW ≤ s.posW → s.decoder = some d →
    PosOperand.wf s.posW v = true → k = modeShift d.mode →
    ∃ d' : Decoder s.posW,
      exec (.setPosition v) s = .next { s with decoder := some d', result := .nothing } ∧
        d'.logicalPosition.toInt = v ∧ d'.logicalPositionPrev.toInt = v ∧
        asr d'.finePosition k = ((BitVec.ofInt s.posW v).setWidth (s.posW - k)).signExtend s.posW ∧
        (InLatchRange s.posW k v →
          d'.finePosition.toInt = 2 ^ k * v + d.finePosition.toInt % 2 ^ k ∧
            asr d'.finePosition k = d'.logicalPosition) ∧
        (¬ InLatchRange s.posW k v → asr d'.finePosition k ≠ d'.logicalPosition)

/-- R108 (a), (b), R109: right after an override GET_POSITION returns the operand, GET_DIRECTION returns NoRotation, and a
SAMPLE of unchanged lines keeps the override. -/
def Obligations.OverrideIsReadBackAndNotReported : Prop :=
  ∀ (s : State) (d : Decoder s.posW) (v : Int), s.decoder = some d →
    ∃ t, exec (.setPosition v) s = .next t ∧
      exec .getPosition t = .next { t with result := .position (BitVec.ofInt t.posW v) } ∧
      exec .getDirection t = .next { t with result := .direction .noRotation } ∧
      (s.ports.pins.raw = d.lastRawState → exec .sample t = .next t)

/-! ## GET_DIRECTION -/

/-- R111: GET_DIRECTION returns the comparison of the two positions, on `dir_out` in the step, and takes the snapshot. -/
def Obligations.GetDirectionComparesAndSnapshots : Prop :=
  ∀ (s : State) (d : Decoder s.posW) (x : Direction), s.decoder = some d →
    (d.logicalPositionPrev.toInt > d.logicalPosition.toInt ∧ x = .counterClockwise) ∨
        (d.logicalPositionPrev.toInt < d.logicalPosition.toInt ∧ x = .clockwise) ∨
        (d.logicalPositionPrev.toInt = d.logicalPosition.toInt ∧ x = .noRotation) →
    exec .getDirection s = .next
        { s with
          decoder := some { d with logicalPositionPrev := d.logicalPosition }
          result := .direction x } ∧
      (s.ports.rst = false → cmdOp s.ports.cmd = 0b101#3 →
        dirOut s = some (match x with
          | .noRotation => 0b00#2 | .clockwise => 0b01#2 | .counterClockwise => 0b11#2)) ∧
      ∀ cmd : BitVec (s.posW + 5), cmdOp cmd = 0b101#3 → decode cmd = .getDirection

/-- R112: a direction is reported at most once: a second query returns NoRotation, and so does any query made while the
two positions are equal. -/
def Obligations.DirectionIsReportedOnce : Prop :=
  ∀ s : State, s.constructed = true →
    ∃ t, exec .getDirection s = .next t ∧
      exec .getDirection t = .next { t with result := .direction .noRotation } ∧
      ∀ u : State, u.constructed = true → u.logical = t.logical → u.prev = t.prev →
        exec .getDirection u = .next { u with result := .direction .noRotation }

/-- R54, R113, R115: the code of the returned Direction is the sign of `logical_position − logical_position_prev` as a 2-bit
two's complement number, never 10. -/
def Obligations.DirectionCodeIsTheSign : Prop :=
  ∀ (s : State) (d : Decoder s.posW), s.decoder = some d →
    ∃ x : Direction,
      exec .getDirection s = .next
          { s with
            decoder := some { d with logicalPositionPrev := d.logicalPosition }
            result := .direction x } ∧
        (directionBits x).toInt = Int.sign (d.logicalPosition.toInt - d.logicalPositionPrev.toInt) ∧
        directionBits x ≠ 0b10#2

/-- R114: at the top of the range a clockwise step into a latch point takes the position from the greatest to the least
latched value and the next query reports CounterClockwise; the mirror image at the bottom. -/
def Obligations.WrapReportsTheOtherDirection : Prop :=
  ∀ (s : State) (d : Decoder s.posW) (k : Nat), Config.minPosW ≤ s.posW → s.decoder = some d →
    isLatchPoint d.mode s.ports.pins.raw = true → k = modeShift d.mode →
    d.logicalPosition = d.logicalPositionPrev → d.logicalPosition = asr d.finePosition k →
    (isClockwiseStep d.lastRawState s.ports.pins.raw = true → d.finePosition.toInt = 2 ^ (s.posW - 1) - 1 →
        s.logical = some (2 ^ (s.posW - 1 - k) - 1) ∧
          ∃ t, exec .sample s = .next t ∧ t.fine = some (-2 ^ (s.posW - 1)) ∧
            t.logical = some (-2 ^ (s.posW - 1 - k)) ∧
            ∃ u, exec .getDirection t = .next u ∧ u.result = .direction .counterClockwise) ∧
      (isCounterClockwiseStep d.lastRawState s.ports.pins.raw = true → d.finePosition.toInt = -2 ^ (s.posW - 1) →
        s.logical = some (-2 ^ (s.posW - 1 - k)) ∧
          ∃ t, exec .sample s = .next t ∧ t.fine = some (2 ^ (s.posW - 1) - 1) ∧
            t.logical = some (2 ^ (s.posW - 1 - k) - 1) ∧
            ∃ u, exec .getDirection t = .next u ∧ u.result = .direction .clockwise)

/-! ## The entries of the transition table -/

/-- R78, R80, R87, R89: the four clockwise entries, each with its pair of RawStates, its word and its class, add 1. They
are listed in the order of the clockwise cycle 0→2→3→1→0. -/
def Obligations.ClockwiseEntriesAddOne : Prop :=
  (∀ e ∈ [(0#2, 2#2, 0b0010#4), (2#2, 3#2, 0b1011#4), (3#2, 1#2, 0b1101#4), (1#2, 0#2, 0b0100#4)],
      transitionIndex e.1 e.2.1 = e.2.2 ∧ romRead e.2.2 = 0b01#2 ∧ transitionClass e.2.2 = .validClockwise) ∧
    ∀ (s : State) (d : Decoder s.posW) (i : Instr), s.decoder = some d →
      i = .rom2 ∨ i = .rom11 ∨ i = .rom13 ∨ i = .rom4 →
      exec i s = .next
        { s with
          decoder := some { d with finePosition := d.finePosition + BitVec.ofInt s.posW 1 }
          result := .nothing }

/-- R77, R83, R84, R90: the four counter-clockwise entries, in the order of the cycle 0→1→3→2→0, take 1 away. -/
def Obligations.CounterClockwiseEntriesTakeOne : Prop :=
  (∀ e ∈ [(0#2, 1#2, 0b0001#4), (1#2, 3#2, 0b0111#4), (3#2, 2#2, 0b1110#4), (2#2, 0#2, 0b1000#4)],
      transitionIndex e.1 e.2.1 = e.2.2 ∧ romRead e.2.2 = 0b11#2 ∧
        transitionClass e.2.2 = .validCounterClockwise) ∧
    ∀ (s : State) (d : Decoder s.posW) (i : Instr), s.decoder = some d →
      i = .rom1 ∨ i = .rom7 ∨ i = .rom14 ∨ i = .rom8 →
      exec i s = .next
        { s with
          decoder := some { d with finePosition := d.finePosition - BitVec.ofInt s.posW 1 }
          result := .nothing }

/-- R79, R82, R85, R88: the four entries of a two-bit change leave the counter unchanged. -/
def Obligations.InvalidEntriesCountNothing : Prop :=
  (∀ e ∈ [(0#2, 3#2, 0b0011#4), (1#2, 2#2, 0b0110#4), (2#2, 1#2, 0b1001#4), (3#2, 0#2, 0b1100#4)],
      transitionIndex e.1 e.2.1 = e.2.2 ∧ romRead e.2.2 = 0b00#2 ∧ transitionClass e.2.2 = .invalid) ∧
    ∀ (s : State) (i : Instr), s.constructed = true →
      i = .rom3 ∨ i = .rom6 ∨ i = .rom9 ∨ i = .rom12 →
      exec i s = .next { s with result := .nothing }

/-- R76, R81, R86, R91: the four entries of an unchanged pair would change nothing, and SAMPLE presents none of them: an
unchanged RawState writes no register, and the index that a changed one forms (R67) is none of the four. -/
def Obligations.UnchangedEntriesCountNothing : Prop :=
  (∀ e ∈ [(0#2, 0b0000#4), (1#2, 0b0101#4), (2#2, 0b1010#4), (3#2, 0b1111#4)],
      transitionIndex e.1 e.1 = e.2 ∧ romRead e.2 = 0b00#2 ∧ transitionClass e.2 = .unchanged) ∧
    ∀ (s : State) (d : Decoder s.posW) (idx : TransitionIndex), s.decoder = some d →
      idx = transitionIndex d.lastRawState s.ports.pins.raw →
      (∀ i : Instr, i = .rom0 ∨ i = .rom5 ∨ i = .rom10 ∨ i = .rom15 →
          exec i s = .next { s with result := .nothing }) ∧
        (s.ports.pins.raw = d.lastRawState → exec .sample s = .next { s with result := .nothing }) ∧
        (s.ports.pins.raw ≠ d.lastRawState →
          idx ≠ 0b0000#4 ∧ idx ≠ 0b0101#4 ∧ idx ≠ 0b1010#4 ∧ idx ≠ 0b1111#4 ∧
            ∃ d' : Decoder s.posW, exec .sample s = .next { s with decoder := some d', result := .nothing } ∧
              d'.finePosition = d.finePosition + (romRead idx).signExtend s.posW)

/-! ## Frames: what an operation leaves unchanged when it completes -/

/-- R118, R104, R111 "Never written": NOP and GET_POSITION write no register, only the returned value is new;
GET_DIRECTION writes only the snapshot. -/
def Obligations.QueriesAndNopFrame : Prop :=
  (∀ (s t : State) (i : Instr), i = .nop ∨ i = .getPosition → exec i s = .next t →
      ∃ r, t = { s with result := r }) ∧
    ∀ s t : State, exec .getDirection s = .next t →
      ∃ (d : Decoder s.posW) (x : Direction), s.decoder = some d ∧
        t = { s with
              decoder := some { d with logicalPositionPrev := d.logicalPosition }
              result := .direction x }

/-- R61: CONSTRUCT writes the decoder's registers; the width and the inputs stay. -/
def Obligations.ConstructFrame : Prop :=
  ∀ (s t : State) (m : BitVec 2), exec (.construct m) s = .next t →
    ∃ d : Decoder s.posW, t = { s with decoder := some d, result := .nothing }

/-- R66 "Never written by SAMPLE", R98: SAMPLE writes neither the snapshot nor the mode, and not the position off the
latch points. -/
def Obligations.SampleFrame : Prop :=
  ∀ s t : State, exec .sample s = .next t →
    ∃ d d' : Decoder s.posW, s.decoder = some d ∧ t = { s with decoder := some d', result := .nothing } ∧
      d'.logicalPositionPrev = d.logicalPositionPrev ∧ d'.mode = d.mode ∧
      (isLatchPoint d.mode s.ports.pins.raw = false → d'.logicalPosition = d.logicalPosition)

/-- R106 "Never written": SET_POSITION writes neither the remembered RawState nor the mode, and keeps the low bits of the
counter below the shift. -/
def Obligations.SetPositionFrame : Prop :=
  ∀ (s t : State) (v : Int), exec (.setPosition v) s = .next t →
    ∃ d d' : Decoder s.posW, s.decoder = some d ∧ t = { s with decoder := some d', result := .nothing } ∧
      d'.lastRawState = d.lastRawState ∧ d'.mode = d.mode ∧
      ∀ j, j < modeShift d.mode → d'.finePosition.getLsbD j = d.finePosition.getLsbD j

/-- R75 and the rule template of 42_transition_table: an entry writes only the counter. -/
def Obligations.RomEntryFrame : Prop :=
  ∀ (s t : State) (idx : TransitionIndex), exec (decodeRom idx) s = .next t →
    ∃ (d : Decoder s.posW) (f : Word s.posW), s.decoder = some d ∧
      t = { s with decoder := some { d with finePosition := f }, result := .nothing }

/-- R99: all loads of position_latch_register, one operation a row. -/
def Obligations.LoadsOfThePositionLatch : Prop :=
  ∀ (s t : State) (i : Instr), exec i s = .next t →
    match i with
    | .construct _ => t.logical = some 0 ∧ t.prev = some 0
    | .sample =>
      t.prev = s.prev ∧
        ∃ (d d' : Decoder s.posW), s.decoder = some d ∧ t = { s with decoder := some d', result := .nothing } ∧
          d'.logicalPosition =
            if s.ports.pins.raw ≠ d.lastRawState ∧ latchEn (modeBits d.mode) s.ports.pins.raw = true then
              latchVal (modeBits d.mode) d'.finePosition
            else d.logicalPosition
    | .setPosition v =>
      t.logical = some (BitVec.ofInt s.posW v).toInt ∧ t.prev = some (BitVec.ofInt s.posW v).toInt
    | .getDirection => t.logical = s.logical ∧ t.prev = s.logical
    | _ => t.logical = s.logical ∧ t.prev = s.prev

/-! ## The command word -/

/-- R49, R50, R51, R59: what the decoder reads from a command word at any width, code by code. -/
def Obligations.DecoderReadsTheOpcodeMap : Prop :=
  ∀ (W : Nat) (posIn : Word W) (modeIn : BitVec 2),
    decode (cmdWord posIn modeIn 0b000#3) = .nop ∧
      decode (cmdWord posIn modeIn 0b001#3) = .construct modeIn ∧
      decode (cmdWord posIn modeIn 0b010#3) = .sample ∧
      decode (cmdWord posIn modeIn 0b011#3) = .getPosition ∧
      decode (cmdWord posIn modeIn 0b100#3) = .setPosition posIn.toInt ∧
      decode (cmdWord posIn modeIn 0b101#3) = .getDirection ∧
      decode (cmdWord posIn modeIn 0b110#3) = .reserved6 ∧
      decode (cmdWord posIn modeIn 0b111#3) = .reserved7

/-- R49: the command word is `pos_in`, `mode_in`, `op` from the top down; CONSTRUCT uses `mode_in`, SET_POSITION uses
`pos_in`, and a field the operation does not use has no effect on the next state or the result. -/
def Obligations.IgnoredFieldsHaveNoEffect : Prop :=
  ∀ (s : State) (posIn posIn' : Word s.posW) (modeIn modeIn' : BitVec 2) (op : BitVec 3) (x y : BitVec (s.posW + 5)),
    x = posIn ++ modeIn ++ op → y = posIn' ++ modeIn' ++ op →
    (op = 0b001#3 → modeIn = modeIn') → (op = 0b100#3 → posIn = posIn') →
    step { s with ports := { s.ports with cmd := x } } = step { s with ports := { s.ports with cmd := y } } ∧
      decode x = decode y ∧
      (op = 0b001#3 → decode x = .construct modeIn) ∧
      (op = 0b100#3 → decode x = .setPosition posIn.toInt)

/-- R49, R50, R51, R76 to R91: decoding the encoding of a well-formed instruction gives it back, in both code spaces, for
every row of the opcode table, at every admitted width, with every operand at every value its field holds. -/
def Obligations.EncodeThenDecode : Prop :=
  ∀ (W : Nat) (i : Instr), Config.minPosW ≤ W → i.wf W = true → decodeCode (encode W i) = i

/-- R49, R59: each command word is the encoding of what it decodes to, with the ignored fields 0; no bit of a used field is
lost. -/
def Obligations.DecodeThenEncode : Prop :=
  ∀ (W : Nat) (cmd : BitVec (W + 5)),
    encode W (decode cmd) = .command
      (cmdWord (if cmdOp cmd = 0b100#3 then cmdPosIn cmd else 0#W)
        (if cmdOp cmd = 0b001#3 then cmdModeIn cmd else 0#2) (cmdOp cmd))

/-- R49, R50, R53: words written out bit by bit from the encodings, at W = 8, in the order `pos_in`, `mode_in`, `op`. -/
def Obligations.WrittenWordsDecode : Prop :=
  decode (0b00000000_00_000#13 : BitVec (8 + 5)) = .nop ∧
    decode (0b00000000_10_001#13 : BitVec (8 + 5)) = .construct 0b10#2 ∧
    decode (0b01001101_11_000#13 : BitVec (8 + 5)) = .nop ∧
    decode (0b11111001_00_100#13 : BitVec (8 + 5)) = .setPosition (-7) ∧
    decode (0b00000000_00_101#13 : BitVec (8 + 5)) = .getDirection ∧
    decodeRom 0b1011#4 = .rom11

/-! ## The step, reset, and the invariants -/

/-- R19, R50: without reset, when the command word on the ports decodes to a well-formed instruction, the step is that
instruction, and then the environment's next port values stand on the ports. -/
def Obligations.StepRunsTheDecodedInstruction : Prop :=
  ∀ (s : State) (i : Instr), s.ports.rst = false → decode s.ports.cmd = i → i.wf s.posW = true →
    (∀ t, exec i s = .next t → step s = .next (takePorts t)) ∧
      (∀ r, exec i s = .refused r → step s = .refused r) ∧
      ∀ u : State, takePorts u = { u with ports := nextPorts u.posW u.pending, pending := u.pending.tail }

/-- R139: with `rst = 1` the step resets whatever `op` and the pins carry, and power-up is the same state. -/
def Obligations.ResetWinsOverTheOperation : Prop :=
  (∀ s : State, s.ports.rst = true →
      step s = .next (takePorts { s with decoder := none, result := .nothing })) ∧
    ∀ W : Nat, State.resetAt W = hardReset (State.resetAt W) ∧ (State.resetAt W).constructed = false

/-- R25, R139, R140 (width and ports: log entries 1 and 4): what reset leaves, and what runs from it. -/
def Obligations.ResetLeavesNoDecoder : Prop :=
  State.reset.constructed = false ∧ State.reset.posOut = none ∧ State.reset.fine = none ∧
    State.reset.logical = none ∧ State.reset.prev = none ∧ State.reset.lastRaw = none ∧ State.reset.mode = none ∧
    State.reset.posW = 32 ∧ step State.reset = .next State.reset

/-- R7, R104, R111 as an invariant of the step: the width stays admitted, and what the last step returned is what the
registers hold. -/
def Obligations.StepKeepsWidthAndResult : Prop :=
  ∀ s t : State, WidthOk s → ResultAgrees s → step s = .next t → WidthOk t ∧ ResultAgrees t ∧ t.posW = s.posW

/-- R62 (e), R93 (e), R106: until reset, no step changes the parity of the counter against the lines: not an invalid
transition, not a failed read, not an override. -/
def Obligations.StepKeepsTheParity : Prop :=
  ∀ s t : State, WidthOk s → s.constructed = true → s.ports.rst = false → step s = .next t → t.parity = s.parity

/-- R107, R114 as an invariant of the step: while the operands of SET_POSITION are in range for every mode, both positions
stay in the range of latched values. -/
def Obligations.StepKeepsPositionsInRange : Prop :=
  ∀ s t : State, WidthOk s → OperandsInRange s → PositionsInRange s → step s = .next t →
    WidthOk t ∧ OperandsInRange t ∧ PositionsInRange t

/-- R98, R106, R107 as an invariant of the step: while the operands of SET_POSITION are in range for every mode, the
visible position at a latch point is always the counter shifted down by the mode's step factor, however the decoder came
there: by CONSTRUCT, by an override, by valid or invalid transitions, with failed reads, across a wrap. -/
def Obligations.StepKeepsLatchedAtRest : Prop :=
  ∀ s t : State, WidthOk s → OperandsInRange s → LatchedAtRest s → step s = .next t →
    WidthOk t ∧ OperandsInRange t ∧ LatchedAtRest t

/-- The invariants of the statements above hold right after reset. -/
def Obligations.InvariantsHoldAtReset : Prop :=
  WidthOk State.reset ∧ ResultAgrees State.reset ∧ OperandsInRange State.reset ∧ PositionsInRange State.reset ∧
    LatchedAtRest State.reset

/-- R15, R17, R145: once constructed, a step without reset keeps the decoder constructed and never changes the mode; a step
that leaves it unconstructed is a reset. -/
def Obligations.OnlyResetEndsTheDecoder : Prop :=
  ∀ s t : State, s.constructed = true → step s = .next t →
    (s.ports.rst = false → t.constructed = true ∧ t.mode = s.mode) ∧
      (s.ports.rst = true → t.constructed = false)
end

