-- ==== Sys2Proof/Laws/State.lean ====
section
/-! SUPPORT. One lemma for each field of State and each update of it, true by definition, so that no proof unfolds a
record update. -/

namespace Sys2Proof.Machine

@[simp] theorem State.returning_posW (s : State) (r : Result s.posW) : (s.returning r).posW = s.posW := rfl
@[simp] theorem State.returning_decoder (s : State) (r : Result s.posW) : (s.returning r).decoder = s.decoder := rfl
@[simp] theorem State.returning_ports (s : State) (r : Result s.posW) : (s.returning r).ports = s.ports := rfl
@[simp] theorem State.returning_result (s : State) (r : Result s.posW) : (s.returning r).result = r := rfl
@[simp] theorem State.returning_pending (s : State) (r : Result s.posW) : (s.returning r).pending = s.pending := rfl

@[simp] theorem State.commit_posW (s : State) (d : Decoder s.posW) (r : Result s.posW) :
    (s.commit d r).posW = s.posW := rfl
@[simp] theorem State.commit_decoder (s : State) (d : Decoder s.posW) (r : Result s.posW) :
    (s.commit d r).decoder = some d := rfl
@[simp] theorem State.commit_ports (s : State) (d : Decoder s.posW) (r : Result s.posW) :
    (s.commit d r).ports = s.ports := rfl
@[simp] theorem State.commit_result (s : State) (d : Decoder s.posW) (r : Result s.posW) :
    (s.commit d r).result = r := rfl
@[simp] theorem State.commit_pending (s : State) (d : Decoder s.posW) (r : Result s.posW) :
    (s.commit d r).pending = s.pending := rfl

@[simp] theorem State.withPins_posW (s : State) (p : Pins) : (s.withPins p).posW = s.posW := rfl
@[simp] theorem State.withPins_decoder (s : State) (p : Pins) : (s.withPins p).decoder = s.decoder := rfl
@[simp] theorem State.withPins_ports (s : State) (p : Pins) :
    (s.withPins p).ports = { s.ports with pins := p } := rfl
@[simp] theorem State.withPins_result (s : State) (p : Pins) : (s.withPins p).result = s.result := rfl
@[simp] theorem State.withPins_pending (s : State) (p : Pins) : (s.withPins p).pending = s.pending := rfl

@[simp] theorem hardReset_posW (s : State) : (hardReset s).posW = s.posW := rfl
@[simp] theorem hardReset_decoder (s : State) : (hardReset s).decoder = none := rfl
@[simp] theorem hardReset_ports (s : State) : (hardReset s).ports = s.ports := rfl
@[simp] theorem hardReset_result (s : State) : (hardReset s).result = .nothing := rfl
@[simp] theorem hardReset_pending (s : State) : (hardReset s).pending = s.pending := rfl

@[simp] theorem takePorts_posW (s : State) : (takePorts s).posW = s.posW := rfl
@[simp] theorem takePorts_decoder (s : State) : (takePorts s).decoder = s.decoder := rfl
@[simp] theorem takePorts_ports (s : State) : (takePorts s).ports = nextPorts s.posW s.pending := rfl
@[simp] theorem takePorts_result (s : State) : (takePorts s).result = s.result := rfl
@[simp] theorem takePorts_pending (s : State) : (takePorts s).pending = s.pending.tail := rfl

@[simp] theorem nextPorts_nil (W : Nat) : nextPorts W [] = Ports.idle W := rfl
@[simp] theorem nextPorts_cons (W : Nat) (p : Ports W) (ps : List (Ports W)) : nextPorts W (p :: ps) = p := rfl

@[simp] theorem State.withFetchWord_posW (s : State) (n w : Nat) : (s.withFetchWord n w).posW = s.posW := rfl
@[simp] theorem State.withFetchWord_decoder (s : State) (n w : Nat) :
    (s.withFetchWord n w).decoder = s.decoder := rfl
@[simp] theorem State.withFetchWord_result (s : State) (n w : Nat) : (s.withFetchWord n w).result = s.result := rfl
@[simp] theorem State.withFetchWord_pending (s : State) (n w : Nat) :
    (s.withFetchWord n w).pending = s.pending := rfl
@[simp] theorem State.withFetchWord_rst (s : State) (n w : Nat) : (s.withFetchWord n w).ports.rst = false := rfl
@[simp] theorem State.withFetchWord_pins (s : State) (n w : Nat) :
    (s.withFetchWord n w).ports.pins = s.ports.pins := rfl
@[simp] theorem State.withFetchWord_cmd (s : State) (n w : Nat) :
    (s.withFetchWord n w).ports.cmd = BitVec.ofNat (s.posW + 5) w := rfl

@[simp] theorem State.resetAt_posW (W : Nat) : (State.resetAt W).posW = W := rfl
@[simp] theorem State.resetAt_decoder (W : Nat) : (State.resetAt W).decoder = none := rfl
@[simp] theorem State.resetAt_ports (W : Nat) : (State.resetAt W).ports = Ports.idle W := rfl
@[simp] theorem State.resetAt_result (W : Nat) : (State.resetAt W).result = .nothing := rfl
@[simp] theorem State.resetAt_pending (W : Nat) : (State.resetAt W).pending = [] := rfl

@[simp] theorem State.reset_posW : State.reset.posW = 32 := rfl
@[simp] theorem State.reset_decoder : State.reset.decoder = none := rfl
@[simp] theorem State.reset_ports : State.reset.ports = Ports.idle 32 := rfl
@[simp] theorem State.reset_result : State.reset.result = .nothing := rfl
@[simp] theorem State.reset_pending : State.reset.pending = [] := rfl

end Sys2Proof.Machine
end

