-- ==== Sys2Proof/Laws/Ops.lean ====
section
/-! SUPPORT. For each shared operation one lemma that says once what it can do, and the small lemmas of the registers'
updates; proofs cite these instead of unfolding the operations. -/

namespace Sys2Proof.Machine

/-! The guard on `constructed`, and the step. -/

theorem whenConstructed_of_some {s : State} {d : Decoder s.posW}
    {k : Decoder s.posW → Host.Outcome State Fault Refusal} (h : s.decoder = some d) : whenConstructed s k = k d := by
  simp [whenConstructed, h]

theorem whenConstructed_of_none {s : State} {k : Decoder s.posW → Host.Outcome State Fault Refusal}
    (h : s.decoder = none) : whenConstructed s k = .refused .notConstructed := by
  simp [whenConstructed, h]

/-- A guarded operation answers a next state only from a constructed decoder. -/
theorem whenConstructed_next {s t : State} {k : Decoder s.posW → Host.Outcome State Fault Refusal}
    (h : whenConstructed s k = .next t) : ∃ d, s.decoder = some d ∧ k d = .next t := by
  unfold whenConstructed at h
  split at h
  · exact absurd h (by simp)
  · exact ⟨_, ‹_›, h⟩

/-- What CONSTRUCT can do when it completes. -/
theorem execConstruct_next {m : BitVec 2} {s t : State} (h : execConstruct m s = .next t) :
    s.decoder = none ∧ ∃ mode, modeOfBits m = some mode ∧
      t = s.commit (constructDecoder mode s.ports.pins.raw) .nothing := by
  unfold execConstruct at h
  split at h
  · exact absurd h (by simp)
  · split at h
    · exact absurd h (by simp)
    · exact ⟨‹_›, _, ‹_›, by simpa using h.symm⟩

theorem execConstruct_of_none {m : BitVec 2} {s : State} {mode : LatchMode} (h : s.decoder = none)
    (hm : modeOfBits m = some mode) :
    execConstruct m s = .next (s.commit (constructDecoder mode s.ports.pins.raw) .nothing) := by
  simp [execConstruct, h, hm]

/-- Every way a step can complete: the reset transition, or the fetched operation. -/
theorem step_next {s t : State} (h : step s = .next t) :
    (s.ports.rst = true ∧ t = takePorts (hardReset s)) ∨
      (s.ports.rst = false ∧ ∃ u, exec (fetch s) s = .next u ∧ t = takePorts u) := by
  unfold step at h
  split at h
  · exact .inl ⟨‹_›, by simpa using h.symm⟩
  · rename_i hr
    refine .inr ⟨by simpa using hr, ?_⟩
    cases he : exec (fetch s) s with
    | next u => exact ⟨u, rfl, by simpa [he] using h.symm⟩
    | fault f => exact nomatch f
    | refused r => simp [he] at h

/-- The count, the state register and the latch that SAMPLE is made of, field by field. -/
@[simp] theorem countDelta_finePosition {W : Nat} (x : RomWord) (d : Decoder W) :
    (countDelta x d).finePosition = d.finePosition + sextWord W x := rfl
@[simp] theorem countDelta_logicalPosition {W : Nat} (x : RomWord) (d : Decoder W) :
    (countDelta x d).logicalPosition = d.logicalPosition := rfl
@[simp] theorem countDelta_logicalPositionPrev {W : Nat} (x : RomWord) (d : Decoder W) :
    (countDelta x d).logicalPositionPrev = d.logicalPositionPrev := rfl
@[simp] theorem countDelta_lastRawState {W : Nat} (x : RomWord) (d : Decoder W) :
    (countDelta x d).lastRawState = d.lastRawState := rfl
@[simp] theorem countDelta_mode {W : Nat} (x : RomWord) (d : Decoder W) : (countDelta x d).mode = d.mode := rfl

@[simp] theorem applyLatch_finePosition {W : Nat} (raw : RawState) (d : Decoder W) :
    (applyLatch raw d).finePosition = d.finePosition := by
  unfold applyLatch; split <;> rfl
@[simp] theorem applyLatch_logicalPositionPrev {W : Nat} (raw : RawState) (d : Decoder W) :
    (applyLatch raw d).logicalPositionPrev = d.logicalPositionPrev := by
  unfold applyLatch; split <;> rfl
@[simp] theorem applyLatch_lastRawState {W : Nat} (raw : RawState) (d : Decoder W) :
    (applyLatch raw d).lastRawState = d.lastRawState := by
  unfold applyLatch; split <;> rfl
@[simp] theorem applyLatch_mode {W : Nat} (raw : RawState) (d : Decoder W) : (applyLatch raw d).mode = d.mode := by
  unfold applyLatch; split <;> rfl

/-- The gates of `latch_en` are the mode's latch points (R96). -/
theorem latchEn_modeBits (m : LatchMode) (raw : RawState) : latchEn (modeBits m) raw = isLatchPoint m raw := by
  cases m <;> revert raw <;> decide

/-- The mux selects the shift of the mode (R97). -/
theorem latchVal_modeBits {W : Nat} (m : LatchMode) (f : Word W) : latchVal (modeBits m) f = asr f (modeShift m) := by
  cases m <;> rfl

theorem applyLatch_logicalPosition {W : Nat} (raw : RawState) (d : Decoder W) :
    (applyLatch raw d).logicalPosition =
      if isLatchPoint d.mode raw then asr d.finePosition (modeShift d.mode) else d.logicalPosition := by
  unfold applyLatch
  rw [latchEn_modeBits, latchVal_modeBits]
  split <;> rfl

theorem sampleStep_unchanged {W : Nat} {raw : RawState} {d : Decoder W} (h : raw = d.lastRawState) :
    sampleStep raw d = d := by
  simp [sampleStep, h]

theorem sampleStep_changed {W : Nat} {raw : RawState} {d : Decoder W} (h : raw ≠ d.lastRawState) :
    sampleStep raw d = applyLatch raw
      { countDelta (romRead (transitionIndex d.lastRawState raw)) d with lastRawState := raw } := by
  simp [sampleStep, h]

@[simp] theorem sampleStep_logicalPositionPrev {W : Nat} (raw : RawState) (d : Decoder W) :
    (sampleStep raw d).logicalPositionPrev = d.logicalPositionPrev := by
  unfold sampleStep; split <;> simp
@[simp] theorem sampleStep_mode {W : Nat} (raw : RawState) (d : Decoder W) : (sampleStep raw d).mode = d.mode := by
  unfold sampleStep; split <;> simp
@[simp] theorem sampleStep_lastRawState {W : Nat} (raw : RawState) (d : Decoder W) :
    (sampleStep raw d).lastRawState = raw := by
  unfold sampleStep; split <;> simp [*]

/-- `sext_W` keeps the value of the word, modulo 2^W (R31). -/
theorem sextWord_eq_ofInt (W : Nat) (x : RomWord) : sextWord W x = BitVec.ofInt W x.toInt := rfl

@[simp] theorem sextWord_zero (W : Nat) : sextWord W 0#2 = 0#W := by
  simp [sextWord_eq_ofInt]

/-- The words of the table by the two lists of single steps (R93 (d), R74). -/
theorem romRead_transitionIndex (old new : RawState) :
    romRead (transitionIndex old new) =
      if isClockwiseStep old new then 0b01#2 else if isCounterClockwiseStep old new then 0b11#2 else 0b00#2 := by
  revert old new; decide

/-- Whether it changes or not, SAMPLE counts the table's word: the word of an unchanged pair is 0 (R76, R81, R86, R91). -/
theorem sampleStep_finePosition {W : Nat} (raw : RawState) (d : Decoder W) :
    (sampleStep raw d).finePosition =
      d.finePosition + sextWord W (romRead (transitionIndex d.lastRawState raw)) := by
  by_cases h : raw = d.lastRawState
  · subst h
    have : romRead (transitionIndex d.lastRawState d.lastRawState) = 0b00#2 := by
      generalize d.lastRawState = r; revert r; decide
    simp [sampleStep_unchanged, this]
  · simp [sampleStep_changed h]

/-- `asr` is floor division (R100). -/
theorem asr_toInt {W : Nat} (v : Word W) (s : Nat) : (asr v s).toInt = v.toInt / 2 ^ s := by
  simp [asr, BitVec.toInt_sshiftRight, Int.shiftRight_eq_div_pow]

theorem modeOfBits_modeBits (m : LatchMode) : modeOfBits (modeBits m) = some m := by
  cases m <;> rfl

/-! The command word. -/

@[simp] theorem cmdOp_cmdWord {W : Nat} (p : Word W) (m : BitVec 2) (o : BitVec 3) : cmdOp (cmdWord p m o) = o := by
  apply BitVec.eq_of_getLsbD_eq
  intro i hi
  simp only [cmdOp, cmdWord, BitVec.getLsbD_extractLsb', hi, decide_true, Bool.true_and, Nat.zero_add]
  rw [BitVec.getLsbD_append]; simp [hi]

@[simp] theorem cmdModeIn_cmdWord {W : Nat} (p : Word W) (m : BitVec 2) (o : BitVec 3) :
    cmdModeIn (cmdWord p m o) = m := by
  apply BitVec.eq_of_getLsbD_eq
  intro i hi
  simp only [cmdModeIn, cmdWord, BitVec.getLsbD_extractLsb', hi, decide_true, Bool.true_and]
  rw [BitVec.getLsbD_append, BitVec.getLsbD_append]
  simp [hi, show ¬ 3 + i < 3 by omega]

@[simp] theorem cmdPosIn_cmdWord {W : Nat} (p : Word W) (m : BitVec 2) (o : BitVec 3) :
    cmdPosIn (cmdWord p m o) = p := by
  apply BitVec.eq_of_getLsbD_eq
  intro i hi
  simp only [cmdPosIn, cmdWord, BitVec.getLsbD_extractLsb', hi, decide_true, Bool.true_and]
  rw [BitVec.getLsbD_append, BitVec.getLsbD_append]
  simp [show ¬ 5 + i < 3 by omega, show ¬ 5 + i - 3 < 2 by omega, show 5 + i - 3 - 2 = i by omega]

end Sys2Proof.Machine
end

