-- ==== Sys2Proof/Laws/Exec.lean ====
section
/-! SUPPORT. For each operation: the next state it answers, as a record update of the state before, and what follows when
it answered one. Proofs cite these and never unfold the meanings. -/

namespace Sys2Proof.Machine

variable {s t : State}

theorem exec_sample_of_some {d : Decoder s.posW} (h : s.decoder = some d) :
    exec .sample s = .next { s with decoder := some (sampleStep s.ports.pins.raw d), result := .nothing } :=
  whenConstructed_of_some h

theorem exec_construct_of_none {m : BitVec 2} {mode : LatchMode} (h : s.decoder = none)
    (hm : modeOfBits m = some mode) :
    exec (.construct m) s =
      .next { s with decoder := some (constructDecoder mode s.ports.pins.raw), result := .nothing } :=
  execConstruct_of_none h hm

theorem exec_getPosition_of_some {d : Decoder s.posW} (h : s.decoder = some d) :
    exec .getPosition s = .next { s with result := .position d.logicalPosition } :=
  whenConstructed_of_some h

theorem exec_setPosition_of_some {d : Decoder s.posW} (v : Int) (h : s.decoder = some d) :
    exec (.setPosition v) s =
      .next { s with decoder := some (overridePosition (BitVec.ofInt s.posW v) d), result := .nothing } :=
  whenConstructed_of_some h

theorem exec_getDirection_of_some {d : Decoder s.posW} (h : s.decoder = some d) :
    exec .getDirection s = .next
      { s with
        decoder := some (snapshot d)
        result := .direction (directionOf d.logicalPositionPrev d.logicalPosition) } :=
  whenConstructed_of_some h

/-- An entry's micro-operation counts the word stored at its index. -/
theorem exec_decodeRom_of_some {d : Decoder s.posW} (idx : TransitionIndex) (h : s.decoder = some d) :
    exec (decodeRom idx) s = .next { s with decoder := some (countDelta (romRead idx) d), result := .nothing } := by
  obtain ⟨n⟩ := idx
  fin_cases n <;> exact whenConstructed_of_some h

theorem sample_next (h : exec .sample s = .next t) :
    ∃ d, s.decoder = some d ∧
      t = { s with decoder := some (sampleStep s.ports.pins.raw d), result := .nothing } := by
  obtain ⟨d, hd, hk⟩ := whenConstructed_next h
  cases hk; exact ⟨d, hd, rfl⟩

theorem construct_next {m : BitVec 2} (h : exec (.construct m) s = .next t) :
    s.decoder = none ∧ ∃ mode, modeOfBits m = some mode ∧
      t = { s with decoder := some (constructDecoder mode s.ports.pins.raw), result := .nothing } :=
  execConstruct_next h

theorem getPosition_next (h : exec .getPosition s = .next t) :
    ∃ d, s.decoder = some d ∧ t = { s with result := .position d.logicalPosition } := by
  obtain ⟨d, hd, hk⟩ := whenConstructed_next h
  cases hk; exact ⟨d, hd, rfl⟩

theorem setPosition_next {v : Int} (h : exec (.setPosition v) s = .next t) :
    ∃ d, s.decoder = some d ∧
      t = { s with decoder := some (overridePosition (BitVec.ofInt s.posW v) d), result := .nothing } := by
  obtain ⟨d, hd, hk⟩ := whenConstructed_next h
  cases hk; exact ⟨d, hd, rfl⟩

theorem getDirection_next (h : exec .getDirection s = .next t) :
    ∃ d, s.decoder = some d ∧
      t = { s with
            decoder := some (snapshot d)
            result := .direction (directionOf d.logicalPositionPrev d.logicalPosition) } := by
  obtain ⟨d, hd, hk⟩ := whenConstructed_next h
  cases hk; exact ⟨d, hd, rfl⟩

theorem decodeRom_next {idx : TransitionIndex} (h : exec (decodeRom idx) s = .next t) :
    ∃ d, s.decoder = some d ∧ t = { s with decoder := some (countDelta (romRead idx) d), result := .nothing } := by
  obtain ⟨n⟩ := idx
  fin_cases n <;> (obtain ⟨d, hd, hk⟩ := whenConstructed_next h; cases hk; exact ⟨d, hd, rfl⟩)

end Sys2Proof.Machine
end

