-- ==== Sys2Proof/Laws/PerInstr.lean ====
section
/-! SUPPORT. The family OpcodeRow: an instruction's encoding carries its row's `match` value of spec/opcode_table.json
under the row's mask, in its own code space. One lemma for each constructor of Instr. -/

namespace Sys2Proof.Laws.OpcodeRow

open Sys2Proof.Machine

/-- The bits of a code under its rows' mask: `cmd[2:0]` of a command word, all four bits of a TransitionIndex. -/
def rowBits {W : Nat} : Code W → Nat
  | .command cmd => (cmdOp cmd).toNat
  | .romIndex idx => idx.toNat

/-- The column `match` of spec/opcode_table.json. -/
def tableMatch : Instr → Nat
  | .nop => 0x0
  | .construct _ => 0x1
  | .sample => 0x2
  | .getPosition => 0x3
  | .setPosition _ => 0x4
  | .getDirection => 0x5
  | .reserved6 => 0x6
  | .reserved7 => 0x7
  | .rom0 => 0x0
  | .rom1 => 0x1
  | .rom2 => 0x2
  | .rom3 => 0x3
  | .rom4 => 0x4
  | .rom5 => 0x5
  | .rom6 => 0x6
  | .rom7 => 0x7
  | .rom8 => 0x8
  | .rom9 => 0x9
  | .rom10 => 0xA
  | .rom11 => 0xB
  | .rom12 => 0xC
  | .rom13 => 0xD
  | .rom14 => 0xE
  | .rom15 => 0xF

def Statement (i : Instr) : Prop := ∀ W : Nat, rowBits (encode W i) = tableMatch i

theorem nop : Statement .nop := fun _ => by simp [encode, rowBits, tableMatch]
theorem construct (modeIn : BitVec 2) : Statement (.construct modeIn) := fun _ => by
  simp [encode, rowBits, tableMatch]
theorem sample : Statement .sample := fun _ => by simp [encode, rowBits, tableMatch]
theorem getPosition : Statement .getPosition := fun _ => by simp [encode, rowBits, tableMatch]
theorem setPosition (posIn : Int) : Statement (.setPosition posIn) := fun _ => by
  simp [encode, rowBits, tableMatch]
theorem getDirection : Statement .getDirection := fun _ => by simp [encode, rowBits, tableMatch]
theorem reserved6 : Statement .reserved6 := fun _ => by simp [encode, rowBits, tableMatch]
theorem reserved7 : Statement .reserved7 := fun _ => by simp [encode, rowBits, tableMatch]
theorem rom0 : Statement .rom0 := fun _ => rfl
theorem rom1 : Statement .rom1 := fun _ => rfl
theorem rom2 : Statement .rom2 := fun _ => rfl
theorem rom3 : Statement .rom3 := fun _ => rfl
theorem rom4 : Statement .rom4 := fun _ => rfl
theorem rom5 : Statement .rom5 := fun _ => rfl
theorem rom6 : Statement .rom6 := fun _ => rfl
theorem rom7 : Statement .rom7 := fun _ => rfl
theorem rom8 : Statement .rom8 := fun _ => rfl
theorem rom9 : Statement .rom9 := fun _ => rfl
theorem rom10 : Statement .rom10 := fun _ => rfl
theorem rom11 : Statement .rom11 := fun _ => rfl
theorem rom12 : Statement .rom12 := fun _ => rfl
theorem rom13 : Statement .rom13 := fun _ => rfl
theorem rom14 : Statement .rom14 := fun _ => rfl
theorem rom15 : Statement .rom15 := fun _ => rfl

end Sys2Proof.Laws.OpcodeRow
end

