-- ==== Sys2Proof/Laws/Runs.lean ====
section
/-! SUPPORT. Running trace lines one by one, what an operation can write at all, and which instructions a command word can
select. -/

namespace Sys2Proof.Machine

/-- An operation that completes writes at most the decoder's registers and the returned value. -/
theorem exec_writes_decoder_and_result {i : Instr} {s t : State} (h : exec i s = .next t) :
    ∃ (d : Option (Decoder s.posW)) (r : Result s.posW), t = { s with decoder := d, result := r } := by
  cases i
  case nop => cases h; exact ⟨_, _, rfl⟩
  case construct m => obtain ⟨_, _, _, rfl⟩ := construct_next h; exact ⟨_, _, rfl⟩
  case reserved6 => cases h
  case reserved7 => cases h
  all_goals (obtain ⟨d, _, hk⟩ := whenConstructed_next h; cases hk; exact ⟨_, _, rfl⟩)

/-- The eight values of `op`. -/
theorem op_cases (o : BitVec 3) :
    o = 0#3 ∨ o = 1#3 ∨ o = 2#3 ∨ o = 3#3 ∨ o = 4#3 ∨ o = 5#3 ∨ o = 6#3 ∨ o = 7#3 := by
  revert o; decide

/-- A command word selects an operation and never an entry of the table. -/
theorem decode_cases {W : Nat} (cmd : BitVec (W + 5)) :
    decode cmd = .nop ∨ (∃ m, decode cmd = .construct m) ∨ decode cmd = .sample ∨ decode cmd = .getPosition ∨
      (∃ v, decode cmd = .setPosition v) ∨ decode cmd = .getDirection ∨ decode cmd = .reserved6 ∨
      decode cmd = .reserved7 := by
  unfold decode
  rcases op_cases (cmdOp cmd) with h | h | h | h | h | h | h | h <;> rw [h] <;> simp

@[simp] theorem decode_idle (W : Nat) : decode (Ports.idle W).cmd = .nop := by
  simp [Ports.idle, decode, cmdOp]

theorem nextPorts_inRange {W : Nat} {l : List (Ports W)} (h : PortsInRange W l) :
    PortsInRange W (nextPorts W l :: l.tail) := by
  cases l with
  | nil =>
    intro p hp v hv
    simp only [nextPorts_nil, List.tail_nil, List.mem_cons, List.not_mem_nil, or_false] at hp
    subst hp; rw [decode_idle] at hv; cases hv
  | cons a l => exact h

/-- The inputs that stay after a step are among those before it, or idle. -/
theorem takePorts_operandsInRange {s : State} (h : OperandsInRange s) : OperandsInRange (takePorts s) :=
  nextPorts_inRange fun p hp => h p (List.mem_cons_of_mem _ hp)

theorem fetch_feed (l : TraceLine) (ls : List TraceLine) (s : State) :
    fetch (s.feed (l :: ls)) = decode (l.ports s.posW).cmd := rfl

theorem runTrace_nil (s : State) : runTrace [] s = .next (s.feed []) := rfl

theorem runTrace_nop (ls : List TraceLine) (s : State) :
    runTrace (.nop :: ls) s = runTrace ls { s with result := .nothing } := by
  have h : step (s.feed (.nop :: ls)) = .next (State.feed ls { s with result := .nothing }) := by
    unfold step
    rw [if_neg (by simp [State.feed, TraceLine.ports]), fetch_feed]
    simp only [TraceLine.ports, decode, cmdOp_cmdWord]
    rfl
  simp only [runTrace, List.length_cons, Host.Core.run]
  have e : Sys2Proof.core.step (s.feed (.nop :: ls)) = _ := h
  rw [e]

theorem runTrace_sample {s : State} {d : Decoder s.posW} (hd : s.decoder = some d) (p : Pins) (ls : List TraceLine) :
    runTrace (.sample p :: ls) s =
      runTrace ls { s with decoder := some (sampleStep p.raw d), result := .nothing } := by
  have h : step (s.feed (.sample p :: ls)) =
      .next (State.feed ls { s with decoder := some (sampleStep p.raw d), result := .nothing }) := by
    unfold step
    rw [if_neg (by simp [State.feed, TraceLine.ports]), fetch_feed]
    simp only [TraceLine.ports, decode, cmdOp_cmdWord]
    have hx := exec_sample_of_some (s := s.feed (.sample p :: ls)) (d := d) hd
    simp only [BitVec.toNat_ofNat]
    rw [hx]
    rfl
  simp only [runTrace, List.length_cons, Host.Core.run]
  have e : Sys2Proof.core.step (s.feed (.sample p :: ls)) = _ := h
  rw [e]

theorem runTrace_construct {s : State} (hd : s.decoder = none) (m : LatchMode) (p : Pins) (ls : List TraceLine) :
    runTrace (.construct m p :: ls) s =
      runTrace ls { s with decoder := some (constructDecoder m p.raw), result := .nothing } := by
  have h : step (s.feed (.construct m p :: ls)) =
      .next (State.feed ls { s with decoder := some (constructDecoder m p.raw), result := .nothing }) := by
    unfold step
    rw [if_neg (by simp [State.feed, TraceLine.ports]), fetch_feed]
    simp only [TraceLine.ports, decode, cmdOp_cmdWord, cmdModeIn_cmdWord]
    have hx := exec_construct_of_none (s := s.feed (.construct m p :: ls)) hd (modeOfBits_modeBits m)
    simp only [BitVec.toNat_ofNat]
    rw [hx]
    rfl
  simp only [runTrace, List.length_cons, Host.Core.run]
  have e : Sys2Proof.core.step (s.feed (.construct m p :: ls)) = _ := h
  rw [e]

@[simp] theorem raw_ofRaw (r : RawState) : (Pins.ofRaw r).raw = r := by
  revert r; decide

end Sys2Proof.Machine
end

