-- ==== Sys2Proof/Tests/Slice0.lean ====
section
/-! SUPPORT. Tests of single steps, each expected value taken from the vector of spec/95_test_vectors.md that its comment
names (or from the rule it names), and for each statement of Certificates/Slice0/Obligations.lean with hypotheses a
witness: a concrete state and operands that meet them all. -/

namespace Sys2Proof.Tests

open Sys2Proof.Machine

/-! ## Helpers -/

/-- The registers of a vector's tuple (last_raw_state, fine_position, logical_position, logical_position_prev). -/
abbrev regs (W : Nat) (m : LatchMode) (raw : Nat) (fine logical prev : Int) : Decoder W :=
  { finePosition := BitVec.ofInt W fine
    logicalPosition := BitVec.ofInt W logical
    logicalPositionPrev := BitVec.ofInt W prev
    lastRawState := BitVec.ofNat 2 raw
    mode := m }

/-- A constructed state with these registers and this nibble on the pins. -/
abbrev built {W : Nat} (d : Decoder W) (pins : BitVec 4) : State :=
  { posW := W
    decoder := some d
    ports := { Ports.idle W with pins := Pins.ofNibble pins }
    result := .nothing
    pending := [] }

/-- An unconstructed state with this nibble on the pins. -/
abbrev empty (W : Nat) (pins : BitVec 4) : State :=
  { posW := W
    decoder := none
    ports := { Ports.idle W with pins := Pins.ofNibble pins }
    result := .nothing
    pending := [] }

/-- A vector's tuple (last_raw_state, fine_position, logical_position, logical_position_prev), each `none` while
unconstructed. -/
structure Tuple where
  raw : Option RawState
  fine : Option Int
  logical : Option Int
  prev : Option Int
deriving DecidableEq, Repr

/-- The tuple of the next state. -/
def after : Host.Outcome State Fault Refusal → Option Tuple
  | .next t => some { raw := t.lastRaw, fine := t.fine, logical := t.logical, prev := t.prev }
  | .fault _ => none
  | .refused _ => none

/-- A constructed decoder's tuple as the vectors write it. -/
def tuple (raw : Nat) (fine logical prev : Int) : Option Tuple :=
  some { raw := some (BitVec.ofNat 2 raw), fine := some fine, logical := some logical, prev := some prev }

/-- The tuple of an unconstructed decoder. -/
def noTuple : Option Tuple := some { raw := none, fine := none, logical := none, prev := none }

/-- The reason of a refused step. -/
def refusal : Host.Outcome State Fault Refusal → Option Refusal
  | .refused r => some r
  | .next _ => none
  | .fault _ => none

/-- The position the step returned. -/
def returned : Host.Outcome State Fault Refusal → Option Int
  | .next t => match t.result with | .position v => some v.toInt | .nothing => none | .direction _ => none
  | .fault _ => none
  | .refused _ => none

/-- The direction the step returned. -/
def turned : Host.Outcome State Fault Refusal → Option Direction
  | .next t => match t.result with | .direction x => some x | .nothing => none | .position _ => none
  | .fault _ => none
  | .refused _ => none

/-! ## WellFormed -/

/-- R51, R55: CONSTRUCT with the reserved mode code is ill-formed. -/
theorem test_wf_refuses_reserved_mode : Instr.wf 32 (.construct 0b00#2) = false := by decide

/-- R51: an operand above or below the W-bit range is ill-formed, its ends are not. -/
theorem test_wf_refuses_wide_operand :
    Instr.wf 8 (.setPosition 128) = false ∧ Instr.wf 8 (.setPosition (-129)) = false ∧
      Instr.wf 8 (.setPosition 127) = true ∧ Instr.wf 8 (.setPosition (-128)) = true := by decide

/-! ## Decode: every row by a word written out from R49 to R51 and R76 to R91 -/

theorem test_decode_nop : decode (0b00000000_00_000#13 : BitVec (8 + 5)) = .nop := by decide
theorem test_decode_construct : decode (0b00000000_01_001#13 : BitVec (8 + 5)) = .construct 0b01#2 := by decide
theorem test_decode_sample : decode (0b00000000_00_010#13 : BitVec (8 + 5)) = .sample := by decide
theorem test_decode_get_position : decode (0b00000000_00_011#13 : BitVec (8 + 5)) = .getPosition := by decide
theorem test_decode_set_position : decode (0b10000001_00_100#13 : BitVec (8 + 5)) = .setPosition (-127) := by decide
theorem test_decode_get_direction : decode (0b00000000_00_101#13 : BitVec (8 + 5)) = .getDirection := by decide
theorem test_decode_reserved : decode (0b00000000_00_110#13 : BitVec (8 + 5)) = .reserved6 ∧
    decode (0b11111111_11_111#13 : BitVec (8 + 5)) = .reserved7 := by decide

/-- R49 and V-X-11: NOP with mode_in = 11 and pos_in = 77. -/
theorem test_decode_ignores_fields : decode (0b01001101_11_000#13 : BitVec (8 + 5)) = .nop := by decide

theorem test_decode_rom :
    decodeRom 0b0000#4 = .rom0 ∧ decodeRom 0b0001#4 = .rom1 ∧ decodeRom 0b0010#4 = .rom2 ∧
      decodeRom 0b0011#4 = .rom3 ∧ decodeRom 0b0100#4 = .rom4 ∧ decodeRom 0b0101#4 = .rom5 ∧
      decodeRom 0b0110#4 = .rom6 ∧ decodeRom 0b0111#4 = .rom7 ∧ decodeRom 0b1000#4 = .rom8 ∧
      decodeRom 0b1001#4 = .rom9 ∧ decodeRom 0b1010#4 = .rom10 ∧ decodeRom 0b1011#4 = .rom11 ∧
      decodeRom 0b1100#4 = .rom12 ∧ decodeRom 0b1101#4 = .rom13 ∧ decodeRom 0b1110#4 = .rom14 ∧
      decodeRom 0b1111#4 = .rom15 := by decide

/-- The table's words at the default width: SET_POSITION 5 is `5 << 5 | 4`, CONSTRUCT TWO03 is `3 << 3 | 1`. -/
theorem test_table_word :
    decodeTableWord 8 0xA4 = some (.setPosition 5) ∧ decodeTableWord 8 0x19 = some (.construct 0b11#2) ∧
      decodeTableWord 8 0x02 = some .sample := by decide

/-- E0 and R32: the literal list and the packed image agree with the lookup, index by index. -/
theorem test_rom_image :
    (List.range 16).map (fun i => (romRead (BitVec.ofNat 4 i)).toInt) =
        [0, -1, 1, 0, 1, 0, 0, -1, -1, 0, 0, 1, 0, 1, -1, 0] ∧
      (List.range 16).all (fun i =>
        romRead (BitVec.ofNat 4 i) == (romImage >>> (2 * i)).setWidth 2) = true := by decide

/-! ## CONSTRUCT -/

/-- V-C-1. -/
theorem test_construct_four3 : after (exec (.construct 0b01#2) (empty 32 0b0001#4)) = tuple 1 0 0 0 := by decide
/-- V-C-6: the failed read of B is low. -/
theorem test_construct_failed_read : after (exec (.construct 0b01#2) (empty 32 0b1101#4)) = tuple 1 0 0 0 := by decide
/-- V-X-7 and V-X-8. -/
theorem test_construct_refusals :
    refusal (exec (.construct 0b00#2) (empty 32 0b0000#4)) = some .reservedMode ∧
      refusal (exec (.construct 0b10#2) (built (regs 32 .four3 0 0 0 0) 0b0000#4)) = some .alreadyConstructed ∧
      refusal (exec (.construct 0b00#2) (built (regs 32 .four3 0 0 0 0) 0b0000#4)) = some .alreadyConstructed := by
  decide

/-! ## SAMPLE -/

/-- V-S-1: the no-op guard at a latch point. -/
theorem test_sample_unchanged : after (exec .sample (built (regs 32 .two03 0 7 3 1) 0b0000#4)) = tuple 0 7 3 1 := by
  decide
/-- V-S-12: wrap up at W = 8 with the latch. -/
theorem test_sample_wraps : after (exec .sample (built (regs 8 .four3 2 127 31 31) 0b0101#4)) =
    tuple 3 (-128) (-32) 31 := by decide
/-- V-S-6: an invalid transition latches a negative counter downwards. -/
theorem test_sample_invalid_latches : after (exec .sample (built (regs 32 .four0 3 (-3) 0 0) 0b0000#4)) =
    tuple 0 (-3) (-1) 0 := by decide
/-- V-T-0 to V-T-15: the sixteen pairs, mode FOUR0, from (old, 10, 2, 2); the counter after. -/
theorem test_sample_table :
    (List.range 16).map (fun i =>
        match exec .sample (built (regs 32 .four0 (i / 4) 10 2 2)
          ((Pins.ofRaw (BitVec.ofNat 2 (i % 4))).nibble)) with
        | .next t => t.fine
        | .fault _ => none
        | .refused _ => none) =
      [10, 9, 11, 10, 11, 10, 10, 9, 9, 10, 10, 11, 10, 11, 9, 10].map some := by decide

/-! ## The latch mux -/

/-- V-L-1 to V-L-12. -/
theorem test_latch_en :
    ([LatchMode.four3, .four0, .two03].map fun m => [0#2, 1#2, 2#2, 3#2].map fun r => latchEn (modeBits m) r) =
      [[false, false, false, true], [true, false, false, false], [true, false, false, true]] := by decide
/-- R96: latch_en equals is_latch_point for the three legal modes. -/
theorem test_latch_en_is_latch_point : ∀ r : BitVec 2, latchEn (modeBits .four3) r = isLatchPoint .four3 r ∧
    latchEn (modeBits .four0) r = isLatchPoint .four0 r ∧ latchEn (modeBits .two03) r = isLatchPoint .two03 r := by
  decide
/-- V-L-22 to V-L-28: asr by 2 of −2, −3, −4, −5, −7, −8, −9. -/
theorem test_asr : ([-2, -3, -4, -5, -7, -8, -9].map fun v => (asr (BitVec.ofInt 32 v) 2).toInt) =
    [-1, -1, -1, -2, -2, -2, -3] := by decide

/-! ## GET_POSITION, SET_POSITION, GET_DIRECTION -/

/-- V-P-15. -/
theorem test_get_position : returned (exec .getPosition (built (regs 32 .four3 3 11 2 0) 0b0000#4)) = some 2 := by
  decide
/-- V-P-5: a negative counter's low bits are kept. -/
theorem test_set_position_phase : after (exec (.setPosition 5) (built (regs 32 .four3 1 (-1) (-1) (-1)) 0b0000#4)) =
    tuple 1 23 5 5 := by decide
/-- V-P-10: out of range at W = 8. -/
theorem test_set_position_truncates : after (exec (.setPosition 100) (built (regs 8 .four3 0 0 0 0) 0b0000#4)) =
    tuple 0 (-112) 100 100 := by decide
/-- V-D-2. -/
theorem test_get_direction : turned (exec .getDirection (built (regs 32 .four3 3 6 1 0) 0b0000#4)) =
      some .clockwise ∧
    after (exec .getDirection (built (regs 32 .four3 3 6 1 0) 0b0000#4)) = tuple 3 6 1 1 := by decide
/-- V-D-8: a wrapped clockwise motion is reported as CounterClockwise. -/
theorem test_get_direction_wrapped :
    turned (exec .getDirection (built (regs 8 .four3 3 (-128) (-32) 31) 0b0000#4)) = some .counterClockwise := by
  decide

/-! ## NOP, reserved codes, the unconstructed state -/

/-- V-X-2 and V-X-11. -/
theorem test_nop : after (exec .nop (empty 32 0b0101#4)) = noTuple ∧
    after (exec .nop (built (regs 32 .four3 2 5 1 0) 0b0101#4)) = tuple 2 5 1 0 := by decide
/-- V-X-9 and V-X-10. -/
theorem test_reserved : refusal (exec .reserved6 (empty 32 0#4)) = some .reservedOp ∧
    refusal (exec .reserved7 (built (regs 32 .four3 2 5 1 0) 0#4)) = some .reservedOp := by decide
/-- V-X-3 to V-X-6. -/
theorem test_not_constructed :
    refusal (exec .sample (empty 32 0b0001#4)) = some .notConstructed ∧
      refusal (exec .getPosition (empty 32 0#4)) = some .notConstructed ∧
      refusal (exec (.setPosition 5) (empty 32 0#4)) = some .notConstructed ∧
      refusal (exec .getDirection (empty 32 0#4)) = some .notConstructed := by decide

/-- R117: the pin access escape hatch leaves the decoder; the next pin read sees the borrowed levels. -/
theorem test_borrow_pins :
    (borrowPins (Pins.ofRaw 1#2) (built (regs 32 .four3 2 5 1 0) 0b0101#4)).fine = some 5 ∧
      (borrowPins (Pins.ofRaw 1#2) (built (regs 32 .four3 2 5 1 0) 0b0101#4)).ports.pins.raw = 1#2 := by decide

/-! ## The entries of the table as micro-operations (R77, R78, R79, R76) -/

theorem test_rom_entries :
    after (exec .rom1 (built (regs 32 .four0 0 10 2 2) 0#4)) = tuple 0 9 2 2 ∧
      after (exec .rom2 (built (regs 32 .four0 0 10 2 2) 0#4)) = tuple 0 11 2 2 ∧
      after (exec .rom3 (built (regs 32 .four0 0 10 2 2) 0#4)) = tuple 0 10 2 2 ∧
      after (exec .rom0 (built (regs 32 .four0 0 10 2 2) 0#4)) = tuple 0 10 2 2 := by decide

/-! ## The step -/

/-- R139, R129 (d), V-X-1: reset wins over a reserved code. -/
theorem test_reset_wins :
    after (step { built (regs 32 .four3 2 5 1 0) 0#4 with
      ports := { rst := true, cmd := 0b111#37, pins := Pins.low } }) = noTuple := by decide
/-- The first step after reset runs the word placed by withFetchWord: CONSTRUCT FOUR0 (`2 << 3 | 1`), lines low (V-C-8
without the failure). -/
theorem test_first_step : after (step (State.reset.withFetchWord 8 0x11)) = tuple 0 0 0 0 := by decide
/-- The trace lines of R57 carry their operation and operand. -/
theorem test_trace_lines :
    decode (TraceLine.ports 32 (.setPosition (-7))).cmd = .setPosition (-7) ∧
      decode (TraceLine.ports 32 (constructRaw .two03 3#2)).cmd = .construct 0b11#2 ∧
      (TraceLine.ports 32 (sampleRaw 2#2)).pins.nibble = 0b0100#4 := by decide

/-! ## Witnesses of the statements' hypotheses -/

/-- Constructed, FOUR3, RawState 2, the lines at 3: a changed SAMPLE into the latch point. -/
abbrev sUp : State := built (regs 8 .four3 2 127 31 31) 0b0101#4
/-- Its registers. -/
abbrev dUp : Decoder 8 := regs 8 .four3 2 127 31 31

theorem witness_UnconstructedDecoderRefusesItsOperations : (empty 8 0#4).constructed = false := by decide
theorem witness_RomEntriesNeedADecoder : State.reset.constructed = false := by decide
theorem witness_RefusalReasonsAndTheirOrder : (State.reset.withFetchWord 8 6).ports.rst = false ∧
    cmdOp (State.reset.withFetchWord 8 6).ports.cmd = 0b110#3 ∧
    ((empty 8 0#4).withFetchWord 8 2).constructed = false ∧
    cmdOp ((empty 8 0#4).withFetchWord 8 2).ports.cmd = 0b010#3 ∧
    cmdOp ((empty 8 0#4).withFetchWord 8 5).ports.cmd = 0b101#3 ∧
    (sUp.withFetchWord 8 1).constructed = true ∧ cmdOp (sUp.withFetchWord 8 1).ports.cmd = 0b001#3 ∧
    cmdOp ((empty 8 0#4).withFetchWord 8 1).ports.cmd = 0b001#3 ∧
    cmdModeIn ((empty 8 0#4).withFetchWord 8 1).ports.cmd = 0b00#2 := by decide
theorem witness_NopWritesNothing : cmdOp (0b01001101_11_000#13 : BitVec (8 + 5)) = 0b000#3 := by decide
theorem witness_ReservedCodesAreRefused : cmdOp (0b00000000_00_110#13 : BitVec (8 + 5)) = 0b110#3 ∧
    cmdOp (0b00000000_00_111#13 : BitVec (8 + 5)) = 0b111#3 := by decide
theorem witness_ConstructInitialisesTheRegisters : (empty 8 0b0111#4).constructed = false ∧
    (0b11#2 = 0b01#2 ∧ LatchMode.two03 = .four3 ∨ 0b11#2 = 0b10#2 ∧ LatchMode.two03 = .four0 ∨
      0b11#2 = 0b11#2 ∧ LatchMode.two03 = .two03) := by decide
theorem witness_SecondConstructIsRefused : sUp.constructed = true := by decide
theorem witness_ReservedModeIsRefused : (empty 8 0b0000#4).constructed = false := by decide
theorem witness_SampleFollowsItsPseudocode : sUp.decoder = some dUp ∧
    3#2 = BitVec.ofBool (sUp.ports.pins.bLvl && !sUp.ports.pins.bErr) ++
      BitVec.ofBool (sUp.ports.pins.aLvl && !sUp.ports.pins.aErr) ∧
    (-128 : BitVec 8) = dUp.finePosition + (romRead (dUp.lastRawState ++ 3#2)).signExtend 8 := by decide
theorem witness_UnchangedSampleWritesNothing :
    (built (regs 8 .two03 3 7 3 1) 0b0101#4).decoder = some (regs 8 .two03 3 7 3 1) ∧
      (built (regs 8 .two03 3 7 3 1) 0b0101#4).ports.pins.raw = (regs 8 .two03 3 7 3 1).lastRawState := by decide
/-- One witness for each end of the range and one inside it. -/
theorem witness_SampleCounterWraps : Config.minPosW ≤ sUp.posW ∧ sUp.decoder = some dUp ∧
    1 = (romRead (dUp.lastRawState ++ sUp.ports.pins.raw)).toInt ∧ dUp.finePosition.toInt = 2 ^ (8 - 1) - 1 ∧
    (built (regs 8 .four0 2 (-128) 0 0) 0b0000#4).decoder = some (regs 8 .four0 2 (-128) 0 0) ∧
    -1 = (romRead ((regs 8 .four0 2 (-128) 0 0).lastRawState ++
      (built (regs 8 .four0 2 (-128) 0 0) 0b0000#4).ports.pins.raw)).toInt ∧
    (regs 8 .four0 2 (-128) 0 0).finePosition.toInt = -2 ^ (8 - 1) ∧
    1 = (romRead ((regs 8 .four3 2 126 0 0).lastRawState ++
      (built (regs 8 .four3 2 126 0 0) 0b0101#4).ports.pins.raw)).toInt := by decide
theorem witness_SampleLatchRule : sUp.decoder = some dUp ∧ 3#2 = sUp.ports.pins.raw ∧
    true = (((modeBits dUp.mode).getLsbD 0 && 3#2 == 0b11#2) || ((modeBits dUp.mode).getLsbD 1 && 3#2 == 0b00#2)) ∧
    (built (regs 8 .four3 3 7 1 1) 0b0100#4).decoder = some (regs 8 .four3 3 7 1 1) ∧
    2#2 = (built (regs 8 .four3 3 7 1 1) 0b0100#4).ports.pins.raw := by decide
theorem witness_LatchedPositionIsTheFloor : sUp.decoder = some dUp ∧ sUp.ports.pins.raw ≠ dUp.lastRawState ∧
    isLatchPoint dUp.mode sUp.ports.pins.raw = true ∧
    (4 : Int) = (match dUp.mode with | .four3 => 4 | .four0 => 4 | .two03 => 2) := by decide
theorem witness_SampleAndConstructRememberTheLines : sUp.constructed = true ∧
    after (exec (.construct 0b10#2) (empty 8 0b0100#4)) = tuple 2 0 0 0 := by decide
theorem witness_TwoBitChangeCountsNothingAndStillLatches :
    (built (regs 8 .four3 0 4 0 0) 0b0101#4).decoder = some (regs 8 .four3 0 4 0 0) ∧
      (built (regs 8 .four3 0 4 0 0) 0b0101#4).ports.pins.raw = ~~~ (regs 8 .four3 0 4 0 0).lastRawState := by decide
theorem witness_SampleIsItsRomEntryThenTheLatch : sUp.decoder = some dUp ∧
    sUp.ports.pins.raw ≠ dUp.lastRawState := by decide
theorem witness_CountFollowsTheLineThatMoved : sUp.decoder = some dUp ∧ true = sUp.ports.pins.raw.getLsbD 0 ∧
    true = sUp.ports.pins.raw.getLsbD 1 ∧ false = dUp.lastRawState.getLsbD 0 ∧ true = dUp.lastRawState.getLsbD 1 ∧
    (true ≠ false ↔ true = true) := by decide
theorem witness_FailedReadActsAsLow :
    ((Pins.ofNibble 0b0011#4).aLvl && !(Pins.ofNibble 0b0011#4).aErr) =
        ((Pins.ofNibble 0b0000#4).aLvl && !(Pins.ofNibble 0b0000#4).aErr) ∧
      ((Pins.ofNibble 0b0011#4).bLvl && !(Pins.ofNibble 0b0011#4).bErr) =
        ((Pins.ofNibble 0b0000#4).bLvl && !(Pins.ofNibble 0b0000#4).bErr) ∧
      after (exec .sample (sUp.withPins (Pins.ofNibble 0b0011#4))) = tuple 0 126 31 31 := by decide
theorem witness_OtherOperationsDoNotReadThePins : Instr.getPosition ≠ .sample ∧
    (∀ m, Instr.getPosition ≠ .construct m) ∧ returned (exec .getPosition sUp) = some 31 ∧
    refusal (exec .getPosition (empty 8 0#4)) = some .notConstructed := by
  refine ⟨by decide, fun m => by simp, by decide, by decide⟩
/-- The two ends of the range of `n`, 1 and 4, in both directions. -/
theorem witness_MissedStepsAreMiscounted : sUp.decoder = some dUp ∧
    sUp.ports.pins.raw = finalRaw dUp.lastRawState (clockwiseWalk dUp.lastRawState 1) ∧
    (sUp.withPins (Pins.ofRaw 2#2)).ports.pins.raw = finalRaw dUp.lastRawState (clockwiseWalk dUp.lastRawState 4) ∧
    sUp.ports.pins.raw = finalRaw dUp.lastRawState (counterClockwiseWalk dUp.lastRawState 3) ∧
    (sUp.withPins (Pins.ofRaw 0#2)).ports.pins.raw =
      finalRaw dUp.lastRawState (counterClockwiseWalk dUp.lastRawState 1) := by decide
theorem witness_SamplesCountTheNetSteps : sUp.decoder = some dUp := by decide
theorem witness_OutAndBackCancels : sUp.decoder = some dUp ∧
    outAndBack dUp.lastRawState [3#2, 0#2] = [3#2, 0#2, 3#2, 2#2] := by decide
theorem witness_ReversalKeepsTheLatchedValue :
    (built (regs 8 .four3 3 6 1 0) 0#4).decoder = some (regs 8 .four3 3 6 1 0) ∧
      isLatchPoint (regs 8 .four3 3 6 1 0).mode (regs 8 .four3 3 6 1 0).lastRawState = true ∧
      (regs 8 .four3 3 6 1 0).logicalPosition =
        asr (regs 8 .four3 3 6 1 0).finePosition (modeShift (regs 8 .four3 3 6 1 0).mode) := by decide
/-- FOUR3 from (3, 7, 1, ·), three clockwise steps: the upper bound 4·1 + 6 is reached. -/
theorem witness_CountersStayWithinTheDriftBounds :
    (built (regs 8 .four3 3 7 1 1) 0#4).decoder = some (regs 8 .four3 3 7 1 1) ∧
      2 ^ modeShift (regs 8 .four3 3 7 1 1).mode * (regs 8 .four3 3 7 1 1).logicalPosition.toInt ≤
        (regs 8 .four3 3 7 1 1).finePosition.toInt ∧
      (regs 8 .four3 3 7 1 1).finePosition.toInt ≤
        2 ^ modeShift (regs 8 .four3 3 7 1 1).mode * (regs 8 .four3 3 7 1 1).logicalPosition.toInt +
          2 ^ modeShift (regs 8 .four3 3 7 1 1).mode - 1 ∧
      noInvalidStep (regs 8 .four3 3 7 1 1).lastRawState
        (([1#2, 0#2, 2#2].map Pins.ofRaw).map Pins.raw) = true ∧
      -2 ^ (8 - 1) ≤ (regs 8 .four3 3 7 1 1).finePosition.toInt - 3 ∧
      (regs 8 .four3 3 7 1 1).finePosition.toInt + 3 < 2 ^ (8 - 1) := by decide
/-- FOUR0 from (0, 4, 1, ·), three counter-clockwise steps: the lower bound 4·1 − 3 is reached. -/
theorem witness_CountersStayWithinTheDriftBounds_four0 :
    (built (regs 8 .four0 0 4 1 1) 0#4).decoder = some (regs 8 .four0 0 4 1 1) ∧
      2 ^ modeShift (regs 8 .four0 0 4 1 1).mode * (regs 8 .four0 0 4 1 1).logicalPosition.toInt ≤ (regs 8 .four0 0 4 1 1).finePosition.toInt ∧
      (regs 8 .four0 0 4 1 1).finePosition.toInt ≤
        2 ^ modeShift (regs 8 .four0 0 4 1 1).mode * (regs 8 .four0 0 4 1 1).logicalPosition.toInt + 2 ^ modeShift (regs 8 .four0 0 4 1 1).mode - 1 ∧
      noInvalidStep (regs 8 .four0 0 4 1 1).lastRawState (([1#2, 3#2, 2#2].map Pins.ofRaw).map Pins.raw) = true ∧
      -2 ^ (8 - 1) ≤ (regs 8 .four0 0 4 1 1).finePosition.toInt - 3 ∧ (regs 8 .four0 0 4 1 1).finePosition.toInt + 3 < 2 ^ (8 - 1) := by decide
/-- TWO03 from (3, 3, 1, ·), one clockwise step: 2·1 + 2 is reached. -/
theorem witness_CountersStayWithinTheDriftBounds_two03 :
    (built (regs 8 .two03 3 3 1 1) 0#4).decoder = some (regs 8 .two03 3 3 1 1) ∧
      2 ^ modeShift (regs 8 .two03 3 3 1 1).mode * (regs 8 .two03 3 3 1 1).logicalPosition.toInt ≤ (regs 8 .two03 3 3 1 1).finePosition.toInt ∧
      (regs 8 .two03 3 3 1 1).finePosition.toInt ≤
        2 ^ modeShift (regs 8 .two03 3 3 1 1).mode * (regs 8 .two03 3 3 1 1).logicalPosition.toInt + 2 ^ modeShift (regs 8 .two03 3 3 1 1).mode - 1 ∧
      noInvalidStep (regs 8 .two03 3 3 1 1).lastRawState (([1#2].map Pins.ofRaw).map Pins.raw) = true ∧
      -2 ^ (8 - 1) ≤ (regs 8 .two03 3 3 1 1).finePosition.toInt - 1 ∧ (regs 8 .two03 3 3 1 1).finePosition.toInt + 1 < 2 ^ (8 - 1) := by decide
/-- Construction at the latch point (c = 4, clockwise) and off it (c = 2, counter-clockwise). -/
theorem witness_FirstLatchAfterConstruct : (empty 4 0#4).constructed = false ∧ 4 ≤ (empty 4 0#4).posW ∧
    isLatchPoint .four0 (finalRaw 0#2 (clockwiseWalk 0#2 4)) = true ∧
    (∀ j, 1 ≤ j → j < 4 → isLatchPoint .four0 (finalRaw 0#2 (clockwiseWalk 0#2 j)) = false) ∧
    isLatchPoint .four3 (finalRaw 0#2 (counterClockwiseWalk 0#2 2)) = true ∧
    (∀ j, 1 ≤ j → j < 2 → isLatchPoint .four3 (finalRaw 0#2 (counterClockwiseWalk 0#2 j)) = false) := by
  refine ⟨by decide, by decide, by decide, ?_, by decide, ?_⟩ <;> intro j h1 h2 <;> interval_cases j <;> decide
/-- R108 (d): FOUR3, (0, 4, 0, 0), SET_POSITION 5, then 0→2→3. -/
theorem witness_OverrideShiftsEveryLaterLatch :
    (built (regs 8 .four3 0 4 0 0) 0#4).decoder = some (regs 8 .four3 0 4 0 0) ∧ Config.minPosW ≤ 8 ∧
      InLatchRange 8 (modeShift (regs 8 .four3 0 4 0 0).mode) 5 ∧
      after (exec (.setPosition 5) (built (regs 8 .four3 0 4 0 0) 0#4)) = tuple 0 20 5 5 ∧
      (Pins.ofRaw 3#2).raw ≠ finalRaw (regs 8 .four3 0 4 0 0).lastRawState ([Pins.ofRaw 2#2].map Pins.raw) ∧
      isLatchPoint (regs 8 .four3 0 4 0 0).mode (Pins.ofRaw 3#2).raw = true ∧
      -2 ^ (8 - 1) ≤ (regs 8 .four3 0 4 0 0).finePosition.toInt - (1 + 1) ∧
      (regs 8 .four3 0 4 0 0).finePosition.toInt + (1 + 1) < 2 ^ (8 - 1) ∧
      -2 ^ (8 - 1) ≤ (2 : Int) ^ modeShift (regs 8 .four3 0 4 0 0).mode * 5 - (1 + 1) ∧
      (2 : Int) ^ modeShift (regs 8 .four3 0 4 0 0).mode * 5 + 2 ^ modeShift (regs 8 .four3 0 4 0 0).mode + (1 + 1) ≤
        2 ^ (8 - 1) := by
  refine ⟨by decide, by decide, ?_, by decide, by decide, by decide, by decide, by decide, by decide, by decide⟩
  unfold InLatchRange; decide
theorem witness_GetPositionReturnsTheLatchedPosition : sUp.decoder = some dUp ∧
    cmdOp (0b00000000_11_011#13 : BitVec (8 + 5)) = 0b011#3 := by decide
theorem witness_SetPositionOverridesThePositions : sUp.decoder = some dUp ∧
    cmdOp (0b10000000_11_100#13 : BitVec (8 + 5)) = 0b100#3 ∧
    2 = (match dUp.mode with | .four3 => 2 | .four0 => 2 | .two03 => 1) := by decide
/-- V-P-11 and V-P-12 (the ends of the range at W = 8) and V-P-10 (out of it). -/
theorem witness_OverrideOperandRange : Config.minPosW ≤ sUp.posW ∧ sUp.decoder = some dUp ∧
    PosOperand.wf 8 31 = true ∧ PosOperand.wf 8 (-32) = true ∧ PosOperand.wf 8 100 = true ∧
    2 = modeShift dUp.mode ∧ InLatchRange 8 2 31 ∧ InLatchRange 8 2 (-32) ∧ ¬ InLatchRange 8 2 32 ∧
    ¬ InLatchRange 8 2 100 := by
  unfold InLatchRange; decide
theorem witness_OverrideIsReadBackAndNotReported :
    (built (regs 8 .two03 3 7 3 1) 0b0101#4).decoder = some (regs 8 .two03 3 7 3 1) ∧
      (built (regs 8 .two03 3 7 3 1) 0b0101#4).ports.pins.raw = (regs 8 .two03 3 7 3 1).lastRawState := by decide
/-- One witness for each of the three outcomes, and a command word on the ports for `dir_out`. -/
theorem witness_GetDirectionComparesAndSnapshots :
    (regs 8 .four3 1 15 3 5).logicalPositionPrev.toInt > (regs 8 .four3 1 15 3 5).logicalPosition.toInt ∧
      (regs 8 .four3 2 (-5) (-1) (-3)).logicalPositionPrev.toInt <
        (regs 8 .four3 2 (-5) (-1) (-3)).logicalPosition.toInt ∧
      dUp.logicalPositionPrev.toInt = dUp.logicalPosition.toInt ∧ sUp.decoder = some dUp ∧
      (sUp.withFetchWord 8 5).ports.rst = false ∧ cmdOp (sUp.withFetchWord 8 5).ports.cmd = 0b101#3 := by decide
theorem witness_DirectionIsReportedOnce : sUp.constructed = true ∧
    (built (regs 32 .four0 0 0 31 31) 0#4).constructed = true ∧
    (built (regs 32 .four0 0 0 31 31) 0#4).logical = sUp.logical ∧
    (built (regs 32 .four0 0 0 31 31) 0#4).prev = sUp.logical := by decide
theorem witness_DirectionCodeIsTheSign : sUp.decoder = some dUp := by decide
/-- Both ends of the range at W = 8: V-S-12 and V-S-13. -/
theorem witness_WrapReportsTheOtherDirection : Config.minPosW ≤ sUp.posW ∧ sUp.decoder = some dUp ∧
    isLatchPoint dUp.mode sUp.ports.pins.raw = true ∧ 2 = modeShift dUp.mode ∧
    dUp.logicalPosition = dUp.logicalPositionPrev ∧ dUp.logicalPosition = asr dUp.finePosition 2 ∧
    isClockwiseStep dUp.lastRawState sUp.ports.pins.raw = true ∧ dUp.finePosition.toInt = 2 ^ (8 - 1) - 1 ∧
    isLatchPoint (regs 8 .four0 2 (-128) (-32) (-32)).mode
      (built (regs 8 .four0 2 (-128) (-32) (-32)) 0b0000#4).ports.pins.raw = true ∧
    (regs 8 .four0 2 (-128) (-32) (-32)).logicalPosition =
      asr (regs 8 .four0 2 (-128) (-32) (-32)).finePosition 2 ∧
    isCounterClockwiseStep (regs 8 .four0 2 (-128) (-32) (-32)).lastRawState
      (built (regs 8 .four0 2 (-128) (-32) (-32)) 0b0000#4).ports.pins.raw = true ∧
    (regs 8 .four0 2 (-128) (-32) (-32)).finePosition.toInt = -2 ^ (8 - 1) := by decide
theorem witness_ClockwiseEntriesAddOne : sUp.decoder = some dUp ∧
    (Instr.rom4 = .rom2 ∨ Instr.rom4 = .rom11 ∨ Instr.rom4 = .rom13 ∨ Instr.rom4 = .rom4) := by decide
theorem witness_CounterClockwiseEntriesTakeOne : sUp.decoder = some dUp ∧
    (Instr.rom8 = .rom1 ∨ Instr.rom8 = .rom7 ∨ Instr.rom8 = .rom14 ∨ Instr.rom8 = .rom8) := by decide
theorem witness_InvalidEntriesCountNothing : sUp.constructed = true ∧
    (Instr.rom12 = .rom3 ∨ Instr.rom12 = .rom6 ∨ Instr.rom12 = .rom9 ∨ Instr.rom12 = .rom12) := by decide
/-- Lines unchanged at a latch point (index 15), and lines changed from 2 to 3 (index 11). -/
theorem witness_UnchangedEntriesCountNothing :
    (built (regs 8 .two03 3 7 3 1) 0b0101#4).decoder = some (regs 8 .two03 3 7 3 1) ∧
      0b1111#4 = transitionIndex (regs 8 .two03 3 7 3 1).lastRawState
        (built (regs 8 .two03 3 7 3 1) 0b0101#4).ports.pins.raw ∧
      (built (regs 8 .two03 3 7 3 1) 0b0101#4).ports.pins.raw = (regs 8 .two03 3 7 3 1).lastRawState ∧
      sUp.decoder = some dUp ∧ 0b1011#4 = transitionIndex dUp.lastRawState sUp.ports.pins.raw ∧
      sUp.ports.pins.raw ≠ dUp.lastRawState := by decide
theorem witness_QueriesAndNopFrame : after (exec .nop sUp) = tuple 2 127 31 31 ∧
    after (exec .getPosition sUp) = tuple 2 127 31 31 ∧
    after (exec .getDirection sUp) = tuple 2 127 31 31 := by decide
theorem witness_ConstructFrame : after (exec (.construct 0b11#2) (empty 8 0b0101#4)) = tuple 3 0 0 0 := by decide
theorem witness_SampleFrame : after (exec .sample sUp) = tuple 3 (-128) (-32) 31 ∧
    isLatchPoint .four3 (sUp.withPins (Pins.ofRaw 0#2)).ports.pins.raw = false := by decide
theorem witness_SetPositionFrame : after (exec (.setPosition (-32)) sUp) = tuple 2 (-125) (-32) (-32) := by decide
theorem witness_RomEntryFrame : after (exec (decodeRom 0b1011#4) sUp) = tuple 2 (-128) 31 31 := by decide
theorem witness_LoadsOfThePositionLatch : after (exec .sample sUp) = tuple 3 (-128) (-32) 31 ∧
    after (exec (.construct 0b01#2) (empty 8 0#4)) = tuple 0 0 0 0 ∧
    after (exec (.setPosition 5) sUp) = tuple 2 23 5 5 ∧ after (exec .getDirection sUp) = tuple 2 127 31 31 ∧
    after (exec .rom8 sUp) = tuple 2 126 31 31 := by decide
/-- A NOP, a CONSTRUCT and a SET_POSITION word, each with another value in an ignored field. -/
theorem witness_IgnoredFieldsHaveNoEffect :
    (0b01001101_11_000#13 : BitVec 13) = (0b01001101#8 ++ 0b11#2 ++ 0b000#3) ∧
      (0b00000000_00_000#13 : BitVec 13) = (0b00000000#8 ++ 0b00#2 ++ 0b000#3) ∧
      (0b01001101_10_001#13 : BitVec 13) = (0b01001101#8 ++ 0b10#2 ++ 0b001#3) ∧
      (0b00000000_10_001#13 : BitVec 13) = (0b00000000#8 ++ 0b10#2 ++ 0b001#3) ∧
      (0b01001101_11_100#13 : BitVec 13) = (0b01001101#8 ++ 0b11#2 ++ 0b100#3) ∧
      (0b01001101_00_100#13 : BitVec 13) = (0b01001101#8 ++ 0b00#2 ++ 0b100#3) ∧ sUp.posW = 8 := by decide

/-- Both ends of the operand at the least width, and a row of the other code space. -/
theorem witness_EncodeThenDecode : Config.minPosW ≤ 3 ∧ Instr.wf 3 (.setPosition (-4)) = true ∧
    Instr.wf 3 (.setPosition 3) = true ∧ Instr.wf 3 (.construct 0b11#2) = true ∧ Instr.wf 3 .rom15 = true := by decide
theorem witness_StepRunsTheDecodedInstruction : (sUp.withFetchWord 8 0xA4).ports.rst = false ∧
    decode (sUp.withFetchWord 8 0xA4).ports.cmd = .setPosition 5 ∧
    Instr.wf (sUp.withFetchWord 8 0xA4).posW (.setPosition 5) = true ∧
    after (exec (.setPosition 5) (sUp.withFetchWord 8 0xA4)) = tuple 2 23 5 5 ∧
    decode (sUp.withFetchWord 8 6).ports.cmd = .reserved6 ∧
    refusal (exec .reserved6 (sUp.withFetchWord 8 6)) = some .reservedOp := by decide
theorem witness_ResetWinsOverTheOperation :
    State.ports { sUp with ports := { sUp.ports with rst := true } } = { sUp.ports with rst := true } ∧
      ({ sUp.ports with rst := true } : Ports 8).rst = true := by decide
theorem witness_StepKeepsWidthAndResult : WidthOk sUp ∧ ResultAgrees sUp ∧
    after (step (sUp.withFetchWord 8 3)) = tuple 2 127 31 31 := by
  exact ⟨by decide, trivial, by decide⟩
theorem witness_StepKeepsTheParity : WidthOk (sUp.withFetchWord 8 2) ∧ (sUp.withFetchWord 8 2).constructed = true ∧
    (sUp.withFetchWord 8 2).ports.rst = false ∧ after (step (sUp.withFetchWord 8 2)) = tuple 3 (-128) (-32) 31 := by
  decide
theorem witness_StepKeepsPositionsInRange : WidthOk (sUp.withFetchWord 8 0x3E4) ∧
    OperandsInRange (sUp.withFetchWord 8 0x3E4) ∧ PositionsInRange (sUp.withFetchWord 8 0x3E4) ∧
    after (step (sUp.withFetchWord 8 0x3E4)) = tuple 2 127 31 31 := by
  refine ⟨by decide, ?_, ?_, by decide⟩
  · intro p hp v hv
    have hp' : p = (sUp.withFetchWord 8 0x3E4).ports := List.mem_singleton.mp hp
    subst hp'
    have h31 : decode (sUp.withFetchWord 8 0x3E4).ports.cmd = .setPosition 31 := by decide
    rw [h31] at hv; cases hv; decide
  · intro d hd
    cases hd
    unfold InLatchRange; decide
theorem witness_StepKeepsLatchedAtRest : WidthOk sUp ∧ OperandsInRange sUp ∧
    LatchedAtRest (built (regs 8 .four3 3 6 1 0) 0#4) ∧ LatchedAtRest sUp ∧
    after (step sUp) = tuple 2 127 31 31 := by
  refine ⟨by decide, ?_, ?_, ?_, by decide⟩
  · intro p hp v hv
    have hp' : p = sUp.ports := List.mem_singleton.mp hp
    subst hp'
    have hn : decode sUp.ports.cmd = .nop := by decide
    rw [hn] at hv; cases hv
  · intro d hd _; cases hd; decide
  · intro d hd _; cases hd; decide
theorem witness_OnlyResetEndsTheDecoder : sUp.constructed = true ∧ after (step sUp) = tuple 2 127 31 31 ∧
    sUp.ports.rst = false ∧
    after (step { sUp with ports := { sUp.ports with rst := true } }) = noTuple := by decide

end Sys2Proof.Tests
end

section
/-! PROOF. What a step returned agrees with the registers it leaves, and no step writes the width. -/

namespace Sys2Proof.Machine

/-! The predicate `ResultAgrees`: one lemma for each kind of returned value, and the ports play no part in it. -/

theorem resultAgrees_of_nothing {s : State} (h : s.result = .nothing) : ResultAgrees s := by
  simp [ResultAgrees, h]

theorem resultAgrees_of_position {s : State} {d : Decoder s.posW} (hd : s.decoder = some d)
    (h : s.result = .position d.logicalPosition) : ResultAgrees s := by
  simp [ResultAgrees, h, hd]

theorem resultAgrees_of_direction {s : State} {d : Decoder s.posW} {x : Direction} (hd : s.decoder = some d)
    (hsnap : d.logicalPositionPrev = d.logicalPosition) (h : s.result = .direction x) : ResultAgrees s := by
  simp [ResultAgrees, h, hd, hsnap]

@[simp] theorem resultAgrees_takePorts (s : State) : ResultAgrees (takePorts s) ↔ ResultAgrees s := by
  obtain ⟨_, _, _, r, _⟩ := s
  cases r <;> rfl

/-- Every operation that completes writes the returned value anew, so nothing is asked of the state before it.
GET_POSITION returns the register itself (R104), GET_DIRECTION takes the snapshot it leaves (R111), and every other
operation returns nothing. -/
theorem exec_next_resultAgrees {i : Instr} {s t : State} (h : exec i s = .next t) : ResultAgrees t := by
  cases i
  case nop => cases h; exact resultAgrees_of_nothing rfl
  case construct m => obtain ⟨_, _, _, rfl⟩ := construct_next h; exact resultAgrees_of_nothing rfl
  case getPosition => obtain ⟨d, hd, rfl⟩ := getPosition_next h; exact resultAgrees_of_position hd rfl
  case getDirection => obtain ⟨d, _, rfl⟩ := getDirection_next h; exact resultAgrees_of_direction rfl rfl rfl
  case reserved6 => cases h
  case reserved7 => cases h
  -- SAMPLE, SET_POSITION and the entries of the table
  all_goals (obtain ⟨d, _, hk⟩ := whenConstructed_next h; cases hk; exact resultAgrees_of_nothing rfl)

theorem exec_next_posW {i : Instr} {s t : State} (h : exec i s = .next t) : t.posW = s.posW := by
  obtain ⟨_, _, rfl⟩ := exec_writes_decoder_and_result h; rfl

/-- The width is a parameter (R7): neither the reset transition nor an operation writes it. -/
theorem step_next_posW {s t : State} (h : step s = .next t) : t.posW = s.posW := by
  obtain ⟨_, rfl⟩ | ⟨_, u, hu, rfl⟩ := step_next h
  · rfl
  · exact (takePorts_posW u).trans (exec_next_posW hu)

theorem step_next_resultAgrees {s t : State} (h : step s = .next t) : ResultAgrees t := by
  obtain ⟨_, rfl⟩ | ⟨_, u, hu, rfl⟩ := step_next h
  · exact resultAgrees_of_nothing rfl
  · exact (resultAgrees_takePorts u).mpr (exec_next_resultAgrees hu)

theorem step_keeps_widthOk {s t : State} (hw : WidthOk s) (h : step s = .next t) : WidthOk t :=
  hw.trans_eq (step_next_posW h).symm

/-- Settles O55: the width is never written, and each step's own returned value agrees with the registers it leaves. -/
theorem stepKeepsWidthAndResult : Obligations.StepKeepsWidthAndResult := by
  intro s t hw _ h
  exact ⟨step_keeps_widthOk hw h, step_next_resultAgrees h, step_next_posW h⟩

end Sys2Proof.Machine
end

section
/-! PROOF. The state: what CONSTRUCT and SAMPLE write into it, what ends a decoder, what a step runs, and what reset
leaves. -/

namespace Sys2Proof.Machine

/-! The tag `constructed`, and the step as a rule for each outcome of the operation on the ports. -/

theorem decoder_eq_none_of_not_constructed {s : State} (h : s.constructed = false) : s.decoder = none := by
  simpa [State.constructed] using h

theorem exists_decoder_of_constructed {s : State} (h : s.constructed = true) : ∃ d, s.decoder = some d :=
  Option.isSome_iff_exists.mp h

theorem constructed_eq_mode_isSome (s : State) : s.constructed = s.mode.isSome :=
  Option.isSome_map.symm

@[simp] theorem takePorts_mode (s : State) : (takePorts s).mode = s.mode := rfl
@[simp] theorem takePorts_constructed (s : State) : (takePorts s).constructed = s.constructed := rfl

theorem step_of_exec_next {s t : State} (hr : s.ports.rst = false) (h : exec (fetch s) s = .next t) :
    step s = .next (takePorts t) := by
  simp [step, hr, h]

theorem step_of_exec_refused {s : State} {r : Refusal} (hr : s.ports.rst = false)
    (h : exec (fetch s) s = .refused r) : step s = .refused r := by
  simp [step, hr, h]

/-! What ends a decoder (R145). -/

/-- No operation that completes on a constructed decoder writes the mode (R15): CONSTRUCT is refused there (R64), and
every other operation writes at most the other registers. -/
theorem exec_next_mode {i : Instr} {s t : State} (hc : s.constructed = true) (h : exec i s = .next t) :
    t.mode = s.mode := by
  cases i
  case nop => cases h; rfl
  case construct m => obtain ⟨hnone, _⟩ := construct_next h; simp [State.constructed, hnone] at hc
  case sample => obtain ⟨d, hd, rfl⟩ := sample_next h; simp [State.mode, hd]
  case reserved6 => cases h
  case reserved7 => cases h
  -- GET_POSITION, SET_POSITION, GET_DIRECTION and the entries of the table
  all_goals
    obtain ⟨d, hd, hk⟩ := whenConstructed_next h
    cases hk
    simp [State.mode, hd, overridePosition, snapshot]

/-- The mode has a value exactly while a decoder is constructed, so a kept mode is a kept decoder (R17). -/
theorem exec_next_constructed {i : Instr} {s t : State} (hc : s.constructed = true) (h : exec i s = .next t) :
    t.constructed = true := by
  rw [constructed_eq_mode_isSome, exec_next_mode hc h, ← constructed_eq_mode_isSome, hc]

/-- Settles O60: the reset transition clears the tag, and no operation on the ports writes the mode or the tag. -/
theorem onlyResetEndsTheDecoder : Obligations.OnlyResetEndsTheDecoder := by
  intro s t hc h
  obtain ⟨hr, rfl⟩ | ⟨hr, u, hu, rfl⟩ := step_next h
  · exact ⟨fun hr' => absurd (hr.symm.trans hr') (by decide), fun _ => rfl⟩
  · rw [takePorts_constructed, takePorts_mode]
    exact ⟨fun _ => ⟨exec_next_constructed hc hu, exec_next_mode hc hu⟩,
      fun hr' => absurd (hr.symm.trans hr') (by decide)⟩

/-! CONSTRUCT and SAMPLE. -/

@[simp] theorem constructDecoder_finePosition {W : Nat} (mode : LatchMode) (raw : RawState) :
    (constructDecoder mode raw : Decoder W).finePosition = 0#W := BitVec.ofInt_ofNat W 0
@[simp] theorem constructDecoder_logicalPosition {W : Nat} (mode : LatchMode) (raw : RawState) :
    (constructDecoder mode raw : Decoder W).logicalPosition = 0#W := BitVec.ofInt_ofNat W 0
@[simp] theorem constructDecoder_logicalPositionPrev {W : Nat} (mode : LatchMode) (raw : RawState) :
    (constructDecoder mode raw : Decoder W).logicalPositionPrev = 0#W := BitVec.ofInt_ofNat W 0
@[simp] theorem constructDecoder_lastRawState {W : Nat} (mode : LatchMode) (raw : RawState) :
    (constructDecoder mode raw : Decoder W).lastRawState = raw := rfl
@[simp] theorem constructDecoder_mode {W : Nat} (mode : LatchMode) (raw : RawState) :
    (constructDecoder mode raw : Decoder W).mode = mode := rfl

/-- Settles O8: the three legal codes select their mode, and the registers are those of `constructDecoder`. -/
theorem constructInitialisesTheRegisters : Obligations.ConstructInitialisesTheRegisters := by
  intro s modeIn mode hs hm
  have hmode : modeOfBits modeIn = some mode := by
    obtain ⟨rfl, rfl⟩ | ⟨rfl, rfl⟩ | ⟨rfl, rfl⟩ := hm <;> rfl
  rw [exec_construct_of_none (decoder_eq_none_of_not_constructed hs) hmode]
  simp [constructDecoder, Pins.raw, Pins.readA, Pins.readB]

/-- Settles O16: both operations leave the RawState of the pins in the state register. -/
theorem sampleAndConstructRememberTheLines : Obligations.SampleAndConstructRememberTheLines := by
  intro s
  constructor
  · intro hc
    obtain ⟨d, hd⟩ := exists_decoder_of_constructed hc
    exact ⟨_, exec_sample_of_some hd, by simp [State.lastRaw]⟩
  · intro m t h
    obtain ⟨_, mode, _, rfl⟩ := construct_next h
    rfl

/-! The step, and reset. -/

/-- Settles O52: the fetched operation is the decoded one, and the step adds only the next ports to it. -/
theorem stepRunsTheDecodedInstruction : Obligations.StepRunsTheDecodedInstruction := by
  rintro s i hr rfl _
  exact ⟨fun _ => step_of_exec_next hr, fun _ => step_of_exec_refused hr, fun _ => rfl⟩

/-- The state right after reset stands still on idle ports, at every width: their operation is NOP (R118). -/
theorem step_resetAt (W : Nat) : step (State.resetAt W) = .next (State.resetAt W) := by
  have hfetch : fetch (State.resetAt W) = .nop := decode_idle W
  exact step_of_exec_next rfl (by rw [hfetch]; rfl)

/-- Settles O54: reset leaves no decoder, so no register has a value, and `step_resetAt` gives the step. -/
theorem resetLeavesNoDecoder : Obligations.ResetLeavesNoDecoder :=
  ⟨rfl, rfl, rfl, rfl, rfl, rfl, rfl, rfl, step_resetAt _⟩

/-- Settles O59: the registers' invariants ask nothing without a decoder, and the idle ports carry no SET_POSITION. -/
theorem invariantsHoldAtReset : Obligations.InvariantsHoldAtReset := by
  refine ⟨by decide, resultAgrees_of_nothing rfl, ?_, nofun, nofun⟩
  exact nextPorts_inRange (l := []) fun _ hp => absurd hp List.not_mem_nil

end Sys2Proof.Machine
end

section
/-! PROOF. What a run of samples does to the registers: it counts the net steps (R74), it remembers the last lines
(R69), and at a latch point it leaves the counter shifted down (R98); and what follows for a walk away from CONSTRUCT
(R102). -/

namespace Sys2Proof.Machine

/-! One run of samples on the registers, tied to the machine by `runTrace_samples`. -/

/-- The registers after sampling these RawStates, the first one first. -/
def sampleRun {W : Nat} (raws : List RawState) (d : Decoder W) : Decoder W :=
  raws.foldl (fun d raw => sampleStep raw d) d

@[simp] theorem sampleRun_nil {W : Nat} (d : Decoder W) : sampleRun [] d = d := rfl
@[simp] theorem sampleRun_cons {W : Nat} (raw : RawState) (raws : List RawState) (d : Decoder W) :
    sampleRun (raw :: raws) d = sampleRun raws (sampleStep raw d) := rfl

/-- Sampling pins one after the other from a constructed decoder completes, and only the registers and the returned
value are written before the next ports stand. -/
theorem runTrace_samples {s : State} {d : Decoder s.posW} (hd : s.decoder = some d) (pins : List Pins) :
    ∃ r : Result s.posW, runTrace (pins.map TraceLine.sample) s =
      .next (State.feed [] { s with decoder := some (sampleRun (pins.map Pins.raw) d), result := r }) := by
  induction pins generalizing s with
  | nil => exact ⟨s.result, by rw [List.map_nil, runTrace_nil, List.map_nil, sampleRun_nil, ← hd]⟩
  | cons p pins ih =>
    rw [List.map_cons, runTrace_sample hd]
    exact ih (s := { s with decoder := some (sampleStep p.raw d), result := .nothing }) rfl

/-- A run that constructs a decoder at RawState `r` and then samples `raws` leaves the registers of `sampleRun`. -/
theorem runTrace_constructRaw_sampleRaws {s : State} (hs : s.decoder = none) (mode : LatchMode) (r : RawState)
    (raws : List RawState) :
    ∃ res : Result s.posW, runTrace (constructRaw mode r :: raws.map sampleRaw) s =
      .next (State.feed []
        { s with decoder := some (sampleRun raws (constructDecoder mode r)), result := res }) := by
  have hpins : raws.map sampleRaw = (raws.map Pins.ofRaw).map TraceLine.sample := by
    rw [List.map_map]; rfl
  have hraws : (raws.map Pins.ofRaw).map Pins.raw = raws := by
    simp [Function.comp_def]
  rw [constructRaw, runTrace_construct hs, raw_ofRaw, hpins]
  simpa only [hraws] using runTrace_samples
    (s := { s with decoder := some (constructDecoder mode r), result := .nothing }) rfl (raws.map Pins.ofRaw)

/-! The registers after a run of samples. -/

@[simp] theorem sampleRun_mode {W : Nat} (raws : List RawState) (d : Decoder W) : (sampleRun raws d).mode = d.mode := by
  induction raws generalizing d with
  | nil => rfl
  | cons raw raws ih => simp [ih]

@[simp] theorem sampleRun_lastRawState {W : Nat} (raws : List RawState) (d : Decoder W) :
    (sampleRun raws d).lastRawState = finalRaw d.lastRawState raws := by
  induction raws generalizing d with
  | nil => rfl
  | cons raw raws ih => simp [ih, finalRaw]

/-- The table's word, read as a number, is the net step of the pair (R74, R93 (d)). -/
theorem romRead_transitionIndex_toInt (old new : RawState) :
    (romRead (transitionIndex old new)).toInt =
      if isClockwiseStep old new then 1 else if isCounterClockwiseStep old new then -1 else 0 := by
  revert old new; decide

/-- A run of samples moves the counter by its net steps, modulo 2^W (R74). -/
theorem sampleRun_finePosition {W : Nat} (raws : List RawState) (d : Decoder W) :
    (sampleRun raws d).finePosition = d.finePosition + BitVec.ofInt W (netSteps d.lastRawState raws) := by
  induction raws generalizing d with
  | nil => simp [netSteps]
  | cons raw raws ih =>
    rw [sampleRun_cons, ih, sampleStep_finePosition, sampleStep_lastRawState, sextWord_eq_ofInt,
      romRead_transitionIndex_toInt, netSteps, BitVec.ofInt_add, BitVec.add_assoc]

/-! The latch at rest, on the registers. -/

/-- At a latch point of the mode the visible position is the counter shifted down. -/
def Decoder.latched {W : Nat} (d : Decoder W) : Prop :=
  isLatchPoint d.mode d.lastRawState = true → d.logicalPosition = asr d.finePosition (modeShift d.mode)

theorem latchedAtRest_iff_latched (s : State) : LatchedAtRest s ↔ ∀ d, s.decoder = some d → d.latched := Iff.rfl

@[simp] theorem asr_zero {W : Nat} (k : Nat) : asr 0#W k = 0#W := by
  simp [asr]

/-- CONSTRUCT leaves the counter and the position 0, so they agree also when it is done at a latch point (R24). -/
theorem constructDecoder_latched {W : Nat} (mode : LatchMode) (raw : RawState) :
    (constructDecoder mode raw : Decoder W).latched := by
  intro _; simp

/-- A SAMPLE keeps it: an unchanged one writes nothing (R71), a changed one latches on arrival (R98). -/
theorem sampleStep_latched {W : Nat} {raw : RawState} {d : Decoder W} (h : d.latched) : (sampleStep raw d).latched := by
  by_cases hraw : raw = d.lastRawState
  · rwa [sampleStep_unchanged hraw]
  · rw [sampleStep_changed hraw]
    intro hp
    rw [applyLatch_mode, applyLatch_lastRawState] at hp
    rw [applyLatch_logicalPosition, if_pos hp, applyLatch_finePosition, applyLatch_mode]

theorem sampleRun_latched {W : Nat} {raws : List RawState} {d : Decoder W} (h : d.latched) :
    (sampleRun raws d).latched := by
  induction raws generalizing d with
  | nil => exact h
  | cons raw raws ih => exact ih (sampleStep_latched h)

/-! A walk in one direction. -/

theorem isClockwiseStep_nextClockwise (r : RawState) : isClockwiseStep r (nextClockwise r) = true := by
  revert r; decide

theorem isClockwiseStep_nextCounterClockwise (r : RawState) : isClockwiseStep r (nextCounterClockwise r) = false := by
  revert r; decide

theorem isCounterClockwiseStep_nextCounterClockwise (r : RawState) :
    isCounterClockwiseStep r (nextCounterClockwise r) = true := by
  revert r; decide

theorem netSteps_clockwiseWalk (r : RawState) (n : Nat) : netSteps r (clockwiseWalk r n) = n := by
  induction n generalizing r with
  | zero => rfl
  | succ n ih => rw [clockwiseWalk, netSteps, if_pos (isClockwiseStep_nextClockwise r), ih]; omega

theorem netSteps_counterClockwiseWalk (r : RawState) (n : Nat) : netSteps r (counterClockwiseWalk r n) = -n := by
  induction n generalizing r with
  | zero => rfl
  | succ n ih =>
    rw [counterClockwiseWalk, netSteps, isClockwiseStep_nextCounterClockwise, if_neg Bool.false_ne_true,
      if_pos (isCounterClockwiseStep_nextCounterClockwise r), ih]
    omega

/-- Samples after CONSTRUCT that end in a latch point with `n` net steps, which the width can hold, leave the floor of
`n` over the step factor in the visible position (R24, R66, R100). -/
theorem sampleRun_constructDecoder_logicalPosition {W : Nat} {mode : LatchMode} {r : RawState} {raws : List RawState}
    {n : Int} (hp : isLatchPoint mode (finalRaw r raws) = true) (hn : netSteps r raws = n) (hw : 4 ≤ W) (hlo : -4 ≤ n)
    (hhi : n ≤ 4) :
    (sampleRun raws (constructDecoder mode r : Decoder W)).logicalPosition.toInt = Int.fdiv n (2 ^ modeShift mode) := by
  have hpow : (2 : Int) ^ 3 ≤ 2 ^ (W - 1) := pow_le_pow_right₀ (by decide) (by omega)
  have hfine : (sampleRun raws (constructDecoder mode r : Decoder W)).finePosition = BitVec.ofInt W n := by
    simp [sampleRun_finePosition, hn]
  have hlatched : (sampleRun raws (constructDecoder mode r : Decoder W)).latched :=
    sampleRun_latched (constructDecoder_latched mode r)
  rw [hlatched (by simpa using hp), hfine, asr_toInt, BitVec.toInt_ofInt_eq_self (by omega) (by omega) (by omega),
    Int.fdiv_eq_ediv_of_nonneg _ (by positivity), sampleRun_mode, constructDecoder_mode]

theorem constructRaw_sampleRaws_logical {s : State} {mode : LatchMode} {r : RawState} {raws : List RawState} {n : Int}
    (hs : s.constructed = false) (hp : isLatchPoint mode (finalRaw r raws) = true) (hn : netSteps r raws = n)
    (hw : 4 ≤ s.posW) (hlo : -4 ≤ n) (hhi : n ≤ 4) :
    ∃ t, runTrace (constructRaw mode r :: raws.map sampleRaw) s = .next t ∧
      t.logical = some (Int.fdiv n (2 ^ modeShift mode)) := by
  obtain ⟨_, hrun⟩ := runTrace_constructRaw_sampleRaws (decoder_eq_none_of_not_constructed hs) mode r raws
  exact ⟨_, hrun, congrArg some (sampleRun_constructDecoder_logicalPosition hp hn hw hlo hhi)⟩

/-- Settles O27: a walk of `c` steps counts ±c, and the latch at its end is the floor of it over the step factor. That
no latch point lies on the way is not needed: an earlier latch would not touch the counter. -/
theorem firstLatchAfterConstruct : Obligations.FirstLatchAfterConstruct := by
  intro s mode r c hs hw _ hc
  constructor
  · intro hp _
    exact constructRaw_sampleRaws_logical hs hp (netSteps_clockwiseWalk r c) hw (by omega) (by omega)
  · intro hp _
    exact constructRaw_sampleRaws_logical hs hp (netSteps_counterClockwiseWalk r c) hw (by omega) (by omega)

end Sys2Proof.Machine
end

section
/-! PROOF. The pins: CONSTRUCT and SAMPLE read them only through level-and-not-failed (R37), and no other operation
reads them (R38). -/

namespace Sys2Proof.Machine

/-! The operations that read the pins. -/

/-- The RawState is a function of the two pin reads alone (R36). -/
theorem raw_eq_of_read_eq {p q : Pins} (ha : p.readA = q.readA) (hb : p.readB = q.readB) : p.raw = q.raw := by
  rw [Pins.raw, Pins.raw, ha, hb]

theorem exec_sample_withPins_of_raw_eq {s t : State} {p q : Pins} (hraw : p.raw = q.raw)
    (h : exec .sample (s.withPins p) = .next t) : exec .sample (s.withPins q) = .next (t.withPins q) := by
  obtain ⟨d, hd, rfl⟩ := sample_next h
  rw [State.withPins_ports, hraw]
  exact exec_sample_of_some (s := s.withPins q) hd

theorem exec_construct_withPins_of_raw_eq {s t : State} {p q : Pins} {m : BitVec 2} (hraw : p.raw = q.raw)
    (h : exec (.construct m) (s.withPins p) = .next t) :
    exec (.construct m) (s.withPins q) = .next (t.withPins q) := by
  obtain ⟨hnone, mode, hm, rfl⟩ := construct_next h
  rw [State.withPins_ports, hraw]
  exact exec_construct_of_none (s := s.withPins q) hnone hm

/-- Settles O20: equal pin reads give one RawState, and both operations see the pins only through it. -/
theorem failedReadActsAsLow : Obligations.FailedReadActsAsLow := by
  intro s t p q i hi ha hb h
  have hraw : p.raw = q.raw := raw_eq_of_read_eq ha hb
  obtain rfl | ⟨m, rfl⟩ := hi
  · exact exec_sample_withPins_of_raw_eq hraw h
  · exact exec_construct_withPins_of_raw_eq hraw h

/-! The operations that do not. -/

/-- Change the next state of an outcome, if it has one. -/
def mapNext (f : State → State) : Host.Outcome State Fault Refusal → Host.Outcome State Fault Refusal
  | .next t => .next (f t)
  | .fault e => .fault e
  | .refused r => .refused r

@[simp] theorem mapNext_next (f : State → State) (t : State) : mapNext f (.next t) = .next (f t) := rfl
@[simp] theorem mapNext_refused (f : State → State) (r : Refusal) : mapNext f (.refused r) = .refused r := rfl

/-- The guard on `constructed` does not read the pins, so it passes their replacement on to what it guards. -/
theorem whenConstructed_withPins {s : State} {p : Pins} {k : Decoder s.posW → Host.Outcome State Fault Refusal}
    {k' : Decoder (s.withPins p).posW → Host.Outcome State Fault Refusal}
    (hk : ∀ d, k' d = mapNext (·.withPins p) (k d)) :
    whenConstructed (s.withPins p) k' = mapNext (·.withPins p) (whenConstructed s k) := by
  cases hd : s.decoder with
  | none => rw [whenConstructed_of_none hd]; exact whenConstructed_of_none (s := s.withPins p) hd
  | some d => rw [whenConstructed_of_some hd]; exact (whenConstructed_of_some (s := s.withPins p) hd).trans (hk d)

/-- Replacing the pins before an operation that does not read them is replacing them after it (R38). -/
theorem exec_withPins {i : Instr} (s : State) (p : Pins) (hsample : i ≠ .sample) (hconstruct : ∀ m, i ≠ .construct m) :
    exec i (s.withPins p) = mapNext (·.withPins p) (exec i s) := by
  cases i
  case sample => exact absurd rfl hsample
  case construct m => exact absurd rfl (hconstruct m)
  case nop => rfl
  case reserved6 => rfl
  case reserved7 => rfl
  -- GET_POSITION, SET_POSITION, GET_DIRECTION and the entries of the table
  all_goals exact whenConstructed_withPins fun _ => rfl

/-- Settles O21: `exec_withPins`, read at each of the two outcomes. -/
theorem otherOperationsDoNotReadThePins : Obligations.OtherOperationsDoNotReadThePins := by
  intro s t p r i hsample hconstruct
  rw [exec_withPins s p hsample hconstruct]
  exact ⟨fun h => by rw [h, mapNext_next], fun h => by rw [h, mapNext_refused]⟩

end Sys2Proof.Machine
end

section
/-! PROOF. The command word: what the decoder reads from it, code by code (R50); that decoding and encoding are inverse
up to the ignored fields (R49); and that the word acts on the step only through what it decodes to. -/

namespace Sys2Proof.Machine

/-! The decoder on a word laid out from its fields, one equation for each value of `op`. -/

section Decode

variable {W : Nat} (posIn : Word W) (modeIn : BitVec 2)

@[simp] theorem decode_cmdWord_nop : decode (cmdWord posIn modeIn 0b000#3) = .nop := by
  simp [decode]
@[simp] theorem decode_cmdWord_construct : decode (cmdWord posIn modeIn 0b001#3) = .construct modeIn := by
  simp [decode]
@[simp] theorem decode_cmdWord_sample : decode (cmdWord posIn modeIn 0b010#3) = .sample := by
  simp [decode]
@[simp] theorem decode_cmdWord_getPosition : decode (cmdWord posIn modeIn 0b011#3) = .getPosition := by
  simp [decode]
@[simp] theorem decode_cmdWord_setPosition : decode (cmdWord posIn modeIn 0b100#3) = .setPosition posIn.toInt := by
  simp [decode]
@[simp] theorem decode_cmdWord_getDirection : decode (cmdWord posIn modeIn 0b101#3) = .getDirection := by
  simp [decode]
@[simp] theorem decode_cmdWord_reserved6 : decode (cmdWord posIn modeIn 0b110#3) = .reserved6 := by
  simp [decode]
@[simp] theorem decode_cmdWord_reserved7 : decode (cmdWord posIn modeIn 0b111#3) = .reserved7 := by
  simp [decode]

end Decode

/-- Settles O47: the eight equations of the decoder. -/
theorem decoderReadsTheOpcodeMap : Obligations.DecoderReadsTheOpcodeMap := fun _ p m =>
  ⟨decode_cmdWord_nop p m, decode_cmdWord_construct p m, decode_cmdWord_sample p m, decode_cmdWord_getPosition p m,
    decode_cmdWord_setPosition p m, decode_cmdWord_getDirection p m, decode_cmdWord_reserved6 p m,
    decode_cmdWord_reserved7 p m⟩

/-- Settles O51: each word is laid out from its three fields, which the decoder's equations read; 11111001 is -7. -/
theorem writtenWordsDecode : Obligations.WrittenWordsDecode :=
  ⟨decode_cmdWord_nop 0b00000000#8 0b00#2, decode_cmdWord_construct 0b00000000#8 0b10#2,
    decode_cmdWord_nop 0b01001101#8 0b11#2, decode_cmdWord_setPosition 0b11111001#8 0b00#2,
    decode_cmdWord_getDirection 0b00000000#8 0b00#2, rfl⟩

/-! Encode, then decode. -/

/-- An operand in the range of the `pos_in` port is the signed value of its W bits (R51). -/
theorem toInt_ofInt_of_wf {W : Nat} {v : Int} (hW : 0 < W) (hv : PosOperand.wf W v = true) :
    (BitVec.ofInt W v).toInt = v := by
  obtain ⟨hlo, hhi⟩ : -(2 : Int) ^ (W - 1) ≤ v ∧ v < 2 ^ (W - 1) := by simpa [PosOperand.wf] using hv
  exact BitVec.toInt_ofInt_eq_self hW hlo hhi

/-- Of all rows only SET_POSITION asks for a well-formed operand: `mode_in` carries every mode code, the reserved one
included. -/
theorem decodeCode_encode {W : Nat} {i : Instr} (hW : 0 < W) (hi : i.wf W = true) : decodeCode (encode W i) = i := by
  cases i
  case nop => exact decode_cmdWord_nop _ _
  case construct m => exact decode_cmdWord_construct _ m
  case sample => exact decode_cmdWord_sample _ _
  case getPosition => exact decode_cmdWord_getPosition _ _
  case setPosition v =>
    exact (decode_cmdWord_setPosition _ _).trans (congrArg Instr.setPosition (toInt_ofInt_of_wf hW hi))
  case getDirection => exact decode_cmdWord_getDirection _ _
  case reserved6 => exact decode_cmdWord_reserved6 _ _
  case reserved7 => exact decode_cmdWord_reserved7 _ _
  -- the entries of the table, each with its own TransitionIndex
  all_goals rfl

/-- Settles O49: `decodeCode_encode`; an admitted width is positive. -/
theorem encodeThenDecode : Obligations.EncodeThenDecode := fun _ _ hW hi =>
  decodeCode_encode (Nat.lt_of_lt_of_le (by decide) hW) hi

/-! Decode, then encode. -/

/-- The three fields make up the whole command word (R49). -/
theorem cmdWord_fields {W : Nat} (cmd : BitVec (W + 5)) : cmdWord (cmdPosIn cmd) (cmdModeIn cmd) (cmdOp cmd) = cmd := by
  apply BitVec.eq_of_getLsbD_eq
  intro i hi
  simp only [cmdWord, cmdPosIn, cmdModeIn, cmdOp, BitVec.getLsbD_append, BitVec.getLsbD_extractLsb']
  by_cases hop : i < 3
  · simp [hop]
  · by_cases hmode : i - 3 < 2
    · simp [hop, hmode, show 3 + (i - 3) = i by omega]
    · simp [hop, hmode, show i - 3 - 2 < W by omega, show 5 + (i - 3 - 2) = i by omega]

theorem encode_decode_cmdWord {W : Nat} (posIn : Word W) (modeIn : BitVec 2) (op : BitVec 3) :
    encode W (decode (cmdWord posIn modeIn op)) = .command
      (cmdWord (if op = 0b100#3 then posIn else 0#W) (if op = 0b001#3 then modeIn else 0#2) op) := by
  rcases op_cases op with rfl | rfl | rfl | rfl | rfl | rfl | rfl | rfl <;> simp [encode]

/-- Settles O50: `encode_decode_cmdWord`, with the word laid out from its own fields. -/
theorem decodeThenEncode : Obligations.DecodeThenEncode := by
  intro W cmd
  rw [← encode_decode_cmdWord, cmdWord_fields]

/-! The ignored fields. -/

/-- The fields the operation uses settle what is decoded. -/
theorem decode_cmdWord_congr {W : Nat} {posIn posIn' : Word W} {modeIn modeIn' : BitVec 2} {op : BitVec 3}
    (hmode : op = 0b001#3 → modeIn = modeIn') (hpos : op = 0b100#3 → posIn = posIn') :
    decode (cmdWord posIn modeIn op) = decode (cmdWord posIn' modeIn' op) := by
  rcases op_cases op with rfl | rfl | rfl | rfl | rfl | rfl | rfl | rfl
  · simp
  · simp [hmode rfl]
  · simp
  · simp
  · simp [hpos rfl]
  all_goals simp

/-- Put another command word on the ports of the coming step. -/
def State.withCmd (s : State) (cmd : BitVec (s.posW + 5)) : State := { s with ports := { s.ports with cmd := cmd } }

/-- The guard on `constructed` does not read the command word. -/
theorem mapNext_whenConstructed_withCmd {f : State → State} {s : State} {cmd : BitVec (s.posW + 5)}
    {k : Decoder s.posW → Host.Outcome State Fault Refusal}
    {k' : Decoder (s.withCmd cmd).posW → Host.Outcome State Fault Refusal}
    (hk : ∀ d, mapNext f (k' d) = mapNext f (k d)) :
    mapNext f (whenConstructed (s.withCmd cmd) k') = mapNext f (whenConstructed s k) := by
  cases hd : s.decoder with
  | none => rw [whenConstructed_of_none hd, whenConstructed_of_none (s := s.withCmd cmd) hd]
  | some d => rw [whenConstructed_of_some hd, whenConstructed_of_some (s := s.withCmd cmd) hd]; exact hk d

theorem mapNext_takePorts_execConstruct_withCmd (m : BitVec 2) (s : State) (cmd : BitVec (s.posW + 5)) :
    mapNext takePorts (execConstruct m (s.withCmd cmd)) = mapNext takePorts (execConstruct m s) := by
  obtain ⟨_, _ | d, _, _, _⟩ := s
  · unfold execConstruct; cases modeOfBits m <;> rfl
  · rfl

/-- The operation runs alike whatever word stands on the ports: none reads the word, and at the end of the step the
next port values replace it. -/
theorem mapNext_takePorts_exec_withCmd (i : Instr) (s : State) (cmd : BitVec (s.posW + 5)) :
    mapNext takePorts (exec i (s.withCmd cmd)) = mapNext takePorts (exec i s) := by
  cases i
  case nop => rfl
  case construct m => exact mapNext_takePorts_execConstruct_withCmd m s cmd
  case reserved6 => rfl
  case reserved7 => rfl
  -- SAMPLE, GET_POSITION, SET_POSITION, GET_DIRECTION and the entries of the table
  all_goals exact mapNext_whenConstructed_withCmd fun _ => rfl

theorem step_of_rst {s : State} (hr : s.ports.rst = true) : step s = .next (takePorts (hardReset s)) :=
  if_pos hr

theorem step_eq_mapNext {s : State} (hr : s.ports.rst = false) : step s = mapNext takePorts (exec (fetch s) s) := by
  cases h : exec (fetch s) s with
  | next t => exact step_of_exec_next hr h
  | fault f => exact nomatch f
  | refused r => exact step_of_exec_refused hr h

/-- The command word acts on the step only through what it decodes to. -/
theorem step_withCmd_of_decode_eq {s : State} {x y : BitVec (s.posW + 5)} (h : decode x = decode y) :
    step (s.withCmd x) = step (s.withCmd y) := by
  cases hr : s.ports.rst with
  | true => exact (step_of_rst (s := s.withCmd x) hr).trans (step_of_rst (s := s.withCmd y) hr).symm
  | false =>
    calc step (s.withCmd x)
      _ = mapNext takePorts (exec (decode x) (s.withCmd x)) := step_eq_mapNext hr
      _ = mapNext takePorts (exec (decode y) (s.withCmd y)) := by
        rw [mapNext_takePorts_exec_withCmd, mapNext_takePorts_exec_withCmd, h]
      _ = step (s.withCmd y) := (step_eq_mapNext (s := s.withCmd y) hr).symm

/-- Settles O48: two words that agree on the used fields decode alike, and the step sees no more of the word. -/
theorem ignoredFieldsHaveNoEffect : Obligations.IgnoredFieldsHaveNoEffect := by
  rintro s posIn posIn' modeIn modeIn' op _ _ rfl rfl hmode hpos
  have hdecode : decode (cmdWord posIn modeIn op) = decode (cmdWord posIn' modeIn' op) :=
    decode_cmdWord_congr hmode hpos
  refine ⟨step_withCmd_of_decode_eq hdecode, hdecode, ?_, ?_⟩
  · rintro rfl; exact decode_cmdWord_construct posIn modeIn
  · rintro rfl; exact decode_cmdWord_setPosition posIn modeIn

end Sys2Proof.Machine
end

section
/-! PROOF. The code of a Direction (R54): the sign of the change since the snapshot. -/

namespace Sys2Proof.Machine

/-- Read as a 2-bit two's complement number, the code is the sign of the difference of the compared registers (R54,
R115). -/
theorem directionBits_directionOf_toInt {W : Nat} (prev logical : Word W) :
    (directionBits (directionOf prev logical)).toInt = Int.sign (logical.toInt - prev.toInt) := by
  simp only [directionOf, BitVec.slt_iff_toInt_lt]
  obtain hlt | heq | hgt := lt_trichotomy logical.toInt prev.toInt
  · rw [if_pos hlt, Int.sign_eq_neg_one_of_neg (by omega)]; rfl
  · rw [if_neg (by omega), if_neg (by omega), heq, Int.sub_self]; rfl
  · rw [if_neg (by omega), if_pos hgt, Int.sign_eq_one_of_pos (by omega)]; rfl

theorem directionBits_ne_two (x : Direction) : directionBits x ≠ 0b10#2 := by
  cases x <;> decide

/-- Settles O35: GET_DIRECTION returns `directionOf` of the registers before it, whose code is the sign. -/
theorem directionCodeIsTheSign : Obligations.DirectionCodeIsTheSign := fun _ _ hd =>
  ⟨_, exec_getDirection_of_some hd, directionBits_directionOf_toInt _ _, directionBits_ne_two _⟩

end Sys2Proof.Machine
end

section
/-! PROOF. The parity of the counter against the lines (R62 (e), R93): bit 0 of the counter and the two lines change
together in SAMPLE, and no other operation on the ports moves any of the three. -/

namespace Sys2Proof.Machine

/-! Bit 0 of the counter, under a count and under an override. -/

/-- The lowest bit of a sum has no carry into it. -/
theorem add_getLsbD_zero {W : Nat} (hW : 0 < W) (x y : Word W) :
    (x + y).getLsbD 0 = (x.getLsbD 0).xor (y.getLsbD 0) := by
  simp [BitVec.getLsbD_add hW]

theorem sextWord_getLsbD_zero {W : Nat} (hW : 0 < W) (x : RomWord) : (sextWord W x).getLsbD 0 = x.getLsbD 0 := by
  rw [sextWord, BitVec.getLsbD_signExtend]; simp [hW]

/-- An override keeps the bits of the counter below the shift (R106). -/
theorem overrideFine_getLsbD_of_lt {W k j : Nat} (posIn fine : Word W) (hj : j < k) :
    (overrideFine k posIn fine).getLsbD j = fine.getLsbD j := by
  have hlow : (phaseBits k fine).getLsbD j = fine.getLsbD j := by
    simpa [phaseBits, BitVec.getLsbD_ofNat, Nat.testBit_two_pow_sub_one, hj] using fine.lt_of_getLsbD
  have hhigh : (posIn <<< k).getLsbD j = false := by simp [hj]
  rw [overrideFine, BitVec.getLsbD_or, hhigh, hlow, Bool.false_or]

theorem modeShift_pos (m : LatchMode) : 0 < modeShift m := by
  cases m <;> decide

/-! The parity of the registers. -/

/-- The table's word is odd exactly when one of the two lines changed (R93). -/
theorem romRead_transitionIndex_getLsbD_zero (old new : RawState) :
    (romRead (transitionIndex old new)).getLsbD 0 =
      ((old.getLsbD 0).xor (old.getLsbD 1)).xor ((new.getLsbD 0).xor (new.getLsbD 1)) := by
  revert old new; decide

/-- SAMPLE moves bit 0 of the counter by the parity of the table's word, and the lines by the same. -/
theorem sampleStep_phaseParity {W : Nat} (hW : 0 < W) (raw : RawState) (d : Decoder W) :
    phaseParity (sampleStep raw d) = phaseParity d := by
  rw [phaseParity, sampleStep_finePosition, sampleStep_lastRawState, add_getLsbD_zero hW, sextWord_getLsbD_zero hW,
    romRead_transitionIndex_getLsbD_zero, Bool.xor_assoc, Bool.xor_assoc, Bool.xor_self, Bool.xor_false, phaseParity]

/-- SET_POSITION keeps the counter below the shift, which is at least 1 in every mode (R94, R106). -/
theorem overridePosition_phaseParity {W : Nat} (posIn : Word W) (d : Decoder W) :
    phaseParity (overridePosition posIn d) = phaseParity d :=
  congrArg (Bool.xor · _) (overrideFine_getLsbD_of_lt posIn d.finePosition (modeShift_pos d.mode))

/-! The parity of the state. -/

theorem State.parity_of_some {s : State} {d : Decoder s.posW} (h : s.decoder = some d) :
    s.parity = some (phaseParity d) := by
  simp [State.parity, h]

@[simp] theorem takePorts_parity (s : State) : (takePorts s).parity = s.parity := rfl

/-- Every operation a command word can select keeps the parity of a constructed decoder. An entry of the table run
alone does not: it moves the counter without the lines (log entry 6). -/
theorem exec_decode_next_parity {s t : State} {cmd : BitVec (s.posW + 5)} (hW : 0 < s.posW)
    (hc : s.constructed = true) (h : exec (decode cmd) s = .next t) : t.parity = s.parity := by
  obtain hi | ⟨m, hi⟩ | hi | hi | ⟨v, hi⟩ | hi | hi | hi := decode_cases cmd <;> rw [hi] at h
  · cases h; rfl
  · obtain ⟨hnone, _⟩ := construct_next h
    simp [State.constructed, hnone] at hc
  · obtain ⟨d, hd, rfl⟩ := sample_next h
    exact (congrArg some (sampleStep_phaseParity hW _ d)).trans (State.parity_of_some hd).symm
  · obtain ⟨d, _, rfl⟩ := getPosition_next h
    rfl
  · obtain ⟨d, hd, rfl⟩ := setPosition_next h
    exact (congrArg some (overridePosition_phaseParity _ d)).trans (State.parity_of_some hd).symm
  · obtain ⟨d, hd, rfl⟩ := getDirection_next h
    exact (State.parity_of_some hd).symm
  · cases h
  · cases h

/-- Settles O56: without reset the step is the operation on the ports, and the next ports play no part. -/
theorem stepKeepsTheParity : Obligations.StepKeepsTheParity := by
  intro s t hw hc hr h
  obtain ⟨hr', _⟩ | ⟨_, u, hu, rfl⟩ := step_next h
  · rw [hr] at hr'; cases hr'
  · rw [takePorts_parity]
    exact exec_decode_next_parity (Nat.lt_of_lt_of_le (by decide) hw) hc hu

end Sys2Proof.Machine
end

section
/-! PROOF. CONSTRUCT: when it is refused (R63, R64) and what it leaves unchanged (R61); and the loads of the position
latch and its snapshot (R99), operation by operation. -/

namespace Sys2Proof.Machine

/-! When CONSTRUCT is refused. -/

theorem exec_construct_of_constructed {s : State} (m : BitVec 2) (h : s.constructed = true) :
    exec (.construct m) s = .refused .alreadyConstructed := by
  obtain ⟨d, hd⟩ := exists_decoder_of_constructed h
  simp [exec, execConstruct, hd]

theorem exec_construct_of_reserved {s : State} {m : BitVec 2} (h : s.decoder = none) (hm : modeOfBits m = none) :
    exec (.construct m) s = .refused .reservedMode := by
  simp [exec, execConstruct, h, hm]

/-- The three legal codes complete on an unconstructed decoder. -/
theorem exists_exec_construct_next {s : State} {m : BitVec 2} (h : s.decoder = none)
    (hm : m = 0b01#2 ∨ m = 0b10#2 ∨ m = 0b11#2) : ∃ t, exec (.construct m) s = .next t := by
  obtain ⟨mode, hmode⟩ : ∃ mode, modeOfBits m = some mode := by
    obtain rfl | rfl | rfl := hm <;> exact ⟨_, rfl⟩
  exact ⟨_, exec_construct_of_none h hmode⟩

/-- Settles O9: the guard on the tag comes first, and the reset transition clears the tag. -/
theorem secondConstructIsRefused : Obligations.SecondConstructIsRefused := fun s hs =>
  ⟨fun m => exec_construct_of_constructed m hs, fun _ => exists_exec_construct_next (hardReset_decoder s)⟩

/-- Settles O10: 00 is the one code without a mode. -/
theorem reservedModeIsRefused : Obligations.ReservedModeIsRefused := fun _ hs =>
  have hnone := decoder_eq_none_of_not_constructed hs
  ⟨exec_construct_of_reserved hnone rfl, fun _ => exists_exec_construct_next hnone⟩

/-- Settles O42: the next state of `construct_next` is such a record update. -/
theorem constructFrame : Obligations.ConstructFrame := by
  intro s t m h
  obtain ⟨_, mode, _, rfl⟩ := construct_next h
  exact ⟨_, rfl⟩

/-! The loads of the position latch. -/

/-- The latch rule of SAMPLE on its updated counter, with the gates and the mux of R96 and R97. -/
theorem sampleStep_logicalPosition {W : Nat} (raw : RawState) (d : Decoder W) :
    (sampleStep raw d).logicalPosition =
      if raw ≠ d.lastRawState ∧ latchEn (modeBits d.mode) raw = true then
        latchVal (modeBits d.mode) (sampleStep raw d).finePosition
      else d.logicalPosition := by
  by_cases hraw : raw = d.lastRawState
  · rw [sampleStep_unchanged hraw, if_neg fun hchanged => hchanged.1 hraw]
  · simp [sampleStep_changed hraw, hraw, applyLatch_logicalPosition, latchEn_modeBits, latchVal_modeBits]

/-- Settles O46: row by row, from the next state each row answers. Beside CONSTRUCT, SAMPLE, SET_POSITION and
GET_DIRECTION no row writes either register. -/
theorem loadsOfThePositionLatch : Obligations.LoadsOfThePositionLatch := by
  intro s t i h
  cases i
  case nop => cases h; exact ⟨rfl, rfl⟩
  case construct m =>
    obtain ⟨_, mode, _, rfl⟩ := construct_next h
    simp [State.logical, State.prev]
  case sample =>
    obtain ⟨d, hd, rfl⟩ := sample_next h
    exact ⟨by simp [State.prev, hd], d, _, hd, rfl, sampleStep_logicalPosition _ d⟩
  case setPosition v => obtain ⟨d, _, rfl⟩ := setPosition_next h; exact ⟨rfl, rfl⟩
  case getDirection =>
    obtain ⟨d, hd, rfl⟩ := getDirection_next h
    simp [State.logical, State.prev, hd, snapshot]
  case reserved6 => cases h
  case reserved7 => cases h
  -- GET_POSITION and the entries of the table
  all_goals
    obtain ⟨d, hd, hk⟩ := whenConstructed_next h
    cases hk
    simp [State.logical, State.prev, hd]

end Sys2Proof.Machine
end

section
/-! PROOF. SAMPLE (R65 to R74): its next state for an unchanged and a changed RawState, what it leaves unchanged, its
count at the two ends of the counter, and what the position latch holds after it; and the query after a wrap (R114). -/

namespace Sys2Proof.Machine

/-! The next state of SAMPLE. -/

theorem exec_sample_of_unchanged {s : State} {d : Decoder s.posW} (hd : s.decoder = some d)
    (h : s.ports.pins.raw = d.lastRawState) : exec .sample s = .next { s with result := .nothing } := by
  rw [exec_sample_of_some hd, sampleStep_unchanged h, ← hd]

/-- Settles O12: an unchanged RawState leaves the registers as they are, the position latch included. -/
theorem unchangedSampleWritesNothing : Obligations.UnchangedSampleWritesNothing := fun _ _ hd h =>
  exec_sample_of_unchanged hd h

/-- Settles O18: the entry that the pair selects counts its word, and a changed SAMPLE goes on from there. -/
theorem sampleIsItsRomEntryThenTheLatch : Obligations.SampleIsItsRomEntryThenTheLatch := by
  intro s d hd hraw
  refine ⟨_, exec_decodeRom_of_some _ hd, ?_⟩
  rw [exec_sample_of_some hd, sampleStep_changed hraw]

theorem applyLatch_eq {W : Nat} (raw : RawState) (d : Decoder W) :
    applyLatch raw d =
      { d with
        logicalPosition :=
          if isLatchPoint d.mode raw then asr d.finePosition (modeShift d.mode) else d.logicalPosition } := by
  rw [← applyLatch_logicalPosition]
  unfold applyLatch
  split <;> rfl

/-- The pseudocode of a changed SAMPLE (R66) as one record update: the latch reads the counter just updated. -/
theorem sampleStep_changed_eq {W : Nat} {raw : RawState} {d : Decoder W} {f : Word W} (h : raw ≠ d.lastRawState)
    (hf : f = d.finePosition + sextWord W (romRead (transitionIndex d.lastRawState raw))) :
    sampleStep raw d =
      { d with
        finePosition := f
        lastRawState := raw
        logicalPosition := if isLatchPoint d.mode raw then asr f (modeShift d.mode) else d.logicalPosition } := by
  rw [sampleStep_changed h, applyLatch_eq, hf]
  rfl

theorem decode_of_cmdOp_sample {W : Nat} {cmd : BitVec (W + 5)} (h : cmdOp cmd = 0b010#3) : decode cmd = .sample := by
  rw [← cmdWord_fields cmd, h, decode_cmdWord_sample]

/-- Settles O11: the two cases of the guard on an unchanged RawState, and the word is decoded by its `op` alone. -/
theorem sampleFollowsItsPseudocode : Obligations.SampleFollowsItsPseudocode := by
  intro s d raw f hd hraw hf
  have hpins : s.ports.pins.raw = raw := hraw.symm
  refine ⟨?_, fun _ => decode_of_cmdOp_sample⟩
  rw [exec_sample_of_some hd, hpins]
  by_cases h : raw = d.lastRawState
  · rw [sampleStep_unchanged h, if_pos h]
  · rw [sampleStep_changed_eq h hf, if_neg h]
    rfl

/-! A two-bit change (R72). -/

theorem not_ne_self (r : RawState) : ~~~ r ≠ r := by
  revert r; decide

theorem romRead_transitionIndex_not (r : RawState) : romRead (transitionIndex r (~~~ r)) = 0#2 := by
  revert r; decide

/-- Settles O17: a change of both lines is a change, so SAMPLE does all its work, and the table's word for it is 0. -/
theorem twoBitChangeCountsNothingAndStillLatches : Obligations.TwoBitChangeCountsNothingAndStillLatches := by
  intro s d hd hraw
  have hfine : d.finePosition =
      d.finePosition + sextWord s.posW (romRead (transitionIndex d.lastRawState (~~~ d.lastRawState))) := by
    rw [romRead_transitionIndex_not, sextWord_zero, BitVec.add_zero]
  rw [exec_sample_of_some hd, hraw, sampleStep_changed_eq (not_ne_self _) hfine]

/-! The frame, and a run of samples. -/

theorem sampleStep_logicalPosition_of_not_latchPoint {W : Nat} {raw : RawState} {d : Decoder W}
    (hp : isLatchPoint d.mode raw = false) : (sampleStep raw d).logicalPosition = d.logicalPosition := by
  simp [sampleStep_logicalPosition, latchEn_modeBits, hp]

/-- Settles O43: field by field on the registers of `sample_next`. -/
theorem sampleFrame : Obligations.SampleFrame := by
  intro s t h
  obtain ⟨d, hd, rfl⟩ := sample_next h
  exact ⟨d, _, hd, rfl, sampleStep_logicalPositionPrev _ d, sampleStep_mode _ d,
    sampleStep_logicalPosition_of_not_latchPoint⟩

@[simp] theorem sampleRun_logicalPositionPrev {W : Nat} (raws : List RawState) (d : Decoder W) :
    (sampleRun raws d).logicalPositionPrev = d.logicalPositionPrev := by
  induction raws generalizing d with
  | nil => rfl
  | cons raw raws ih => simp [ih]

/-- Settles O23: the machine's run is `sampleRun` on the registers, which counts the net steps. -/
theorem samplesCountTheNetSteps : Obligations.SamplesCountTheNetSteps := by
  intro s d pins hd
  obtain ⟨r, hrun⟩ := runTrace_samples hd pins
  exact ⟨_, r, hrun, sampleRun_finePosition _ d, sampleRun_lastRawState _ d, sampleRun_logicalPositionPrev _ d,
    sampleRun_mode _ d⟩

/-! The count of one SAMPLE, as an integer (R68). -/

/-- The counter after a SAMPLE is the integer sum put on W bits: modulo 2^W. -/
theorem sampleStep_finePosition_eq_ofInt {W : Nat} (raw : RawState) (d : Decoder W) :
    (sampleStep raw d).finePosition =
      BitVec.ofInt W (d.finePosition.toInt + (romRead (transitionIndex d.lastRawState raw)).toInt) := by
  rw [sampleStep_finePosition, sextWord_eq_ofInt, BitVec.ofInt_add, BitVec.ofInt_toInt]

theorem toInt_ofInt_add_two_pow (W : Nat) (v : Int) :
    (BitVec.ofInt W (v + 2 ^ W)).toInt = (BitVec.ofInt W v).toInt := by
  have hbmod := Int.add_bmod_right v (2 ^ W)
  push_cast at hbmod
  rw [BitVec.toInt_ofInt, BitVec.toInt_ofInt, hbmod]

/-- The W-bit range is two halves, one below zero and one from zero up. -/
theorem two_pow_eq_halves {W : Nat} (hW : 0 < W) : (2 : Int) ^ W = 2 ^ (W - 1) + 2 ^ (W - 1) := by
  rw [← two_mul, ← pow_succ', Nat.sub_add_cancel hW]

/-- One above the top of the range is the bottom (R68). -/
theorem toInt_ofInt_above_top {W : Nat} (hW : 0 < W) : (BitVec.ofInt W (2 ^ (W - 1))).toInt = -2 ^ (W - 1) := by
  have hpos : (0 : Int) < 2 ^ (W - 1) := by positivity
  have hwrap := toInt_ofInt_add_two_pow W (-2 ^ (W - 1))
  rw [two_pow_eq_halves hW, neg_add_cancel_left] at hwrap
  rw [hwrap, BitVec.toInt_ofInt_eq_self hW le_rfl (by omega)]

/-- One below the bottom of the range is the top (R68). -/
theorem toInt_ofInt_below_bottom {W : Nat} (hW : 0 < W) :
    (BitVec.ofInt W (-2 ^ (W - 1) - 1)).toInt = 2 ^ (W - 1) - 1 := by
  have hpos : (0 : Int) < 2 ^ (W - 1) := by positivity
  have hsum : -2 ^ (W - 1) - 1 + 2 ^ W = (2 : Int) ^ (W - 1) - 1 := by rw [two_pow_eq_halves hW]; omega
  rw [← toInt_ofInt_add_two_pow, hsum, BitVec.toInt_ofInt_eq_self hW (by omega) (by omega)]

/-- A sum of a W-bit number and a number of one step, on W bits: it wraps at the two ends and nowhere else (R68). -/
theorem toInt_ofInt_toInt_add_step {W : Nat} (hW : 0 < W) (f : Word W) {delta : Int}
    (hdelta : delta = -1 ∨ delta = 0 ∨ delta = 1) :
    (BitVec.ofInt W (f.toInt + delta)).toInt =
      if delta = 1 ∧ f.toInt = 2 ^ (W - 1) - 1 then -2 ^ (W - 1)
      else if delta = -1 ∧ f.toInt = -2 ^ (W - 1) then 2 ^ (W - 1) - 1
      else f.toInt + delta := by
  have hlo : -2 ^ (W - 1) ≤ f.toInt := BitVec.le_toInt f
  have hhi : f.toInt < 2 ^ (W - 1) := BitVec.toInt_lt
  split_ifs with htop hbottom
  · rw [htop.1, htop.2, Int.sub_add_cancel, toInt_ofInt_above_top hW]
  · rw [hbottom.1, hbottom.2, ← Int.sub_eq_add_neg, toInt_ofInt_below_bottom hW]
  · exact BitVec.toInt_ofInt_eq_self hW (by omega) (by omega)

theorem romRead_toInt_cases (idx : TransitionIndex) :
    (romRead idx).toInt = -1 ∨ (romRead idx).toInt = 0 ∨ (romRead idx).toInt = 1 := by
  revert idx; decide

/-- Settles O13: the table's word is one step or none, and the counter is the sum on W bits. -/
theorem sampleCounterWraps : Obligations.SampleCounterWraps := by
  rintro s d delta hW hd rfl
  have hdelta := romRead_toInt_cases (transitionIndex d.lastRawState s.ports.pins.raw)
  have hfine := sampleStep_finePosition_eq_ofInt s.ports.pins.raw d
  exact ⟨hdelta, _, exec_sample_of_some hd, rfl, congrArg some ((congrArg BitVec.toInt hfine).trans
    (toInt_ofInt_toInt_add_step (Nat.lt_of_lt_of_le (by decide) hW) d.finePosition hdelta))⟩

/-! The latch of a changed SAMPLE (R70, R100). -/

theorem sampleStep_logicalPosition_of_latchPoint {W : Nat} {raw : RawState} {d : Decoder W} (h : raw ≠ d.lastRawState)
    (hp : isLatchPoint d.mode raw = true) :
    (sampleStep raw d).logicalPosition = asr (sampleStep raw d).finePosition (modeShift d.mode) := by
  simp [sampleStep_logicalPosition, latchEn_modeBits, latchVal_modeBits, h, hp]

/-- Settles O15: `asr` is division by the step factor rounded down, and the interval is what such a quotient means. -/
theorem latchedPositionIsTheFloor : Obligations.LatchedPositionIsTheFloor := by
  intro s d factor hd hraw hp hfactor
  have hpow : factor = 2 ^ modeShift d.mode := by rw [hfactor]; cases d.mode <;> rfl
  have hpos : 0 < factor := by rw [hpow]; positivity
  generalize hf : (sampleStep s.ports.pins.raw d).finePosition.toInt = f
  have hl : (sampleStep s.ports.pins.raw d).logicalPosition.toInt = f.fdiv factor := by
    rw [sampleStep_logicalPosition_of_latchPoint hraw hp, asr_toInt, hf, ← hpow, Int.fdiv_eq_ediv_of_nonneg _ hpos.le]
  refine ⟨_, f, _, exec_sample_of_some hd, congrArg some hf, congrArg some hl, rfl, ?_⟩
  rw [Int.fdiv_eq_ediv_of_nonneg _ hpos.le]
  exact ⟨Int.mul_ediv_self_le hpos.ne', Int.le_sub_one_of_lt (Int.lt_mul_ediv_self_add hpos)⟩

/-! A query after a wrap (R114). -/

theorem directionOf_of_lt {W : Nat} {prev logical : Word W} (h : prev.toInt < logical.toInt) :
    directionOf prev logical = .clockwise := by
  simp only [directionOf, BitVec.slt_iff_toInt_lt]
  rw [if_neg (by omega), if_pos h]

theorem directionOf_of_gt {W : Nat} {prev logical : Word W} (h : logical.toInt < prev.toInt) :
    directionOf prev logical = .counterClockwise := by
  simp only [directionOf, BitVec.slt_iff_toInt_lt, if_pos h]

theorem modeShift_le_two (m : LatchMode) : modeShift m ≤ 2 := by
  cases m <;> decide

/-- The greatest counter value latches to the greatest latched value. -/
theorem asr_toInt_of_top {W k : Nat} {f : Word W} (hk : k ≤ W - 1) (h : f.toInt = 2 ^ (W - 1) - 1) :
    (asr f k).toInt = 2 ^ (W - 1 - k) - 1 := by
  have hpow : (2 : Int) ^ (W - 1) = 2 ^ (W - 1 - k) * 2 ^ k := by rw [← pow_add, Nat.sub_add_cancel hk]
  have hpos : (0 : Int) < 2 ^ k := by positivity
  rw [asr_toInt, h, hpow, Int.ediv_eq_iff_of_pos hpos]
  constructor <;> linarith

/-- The least counter value latches to the least latched value. -/
theorem asr_toInt_of_bottom {W k : Nat} {f : Word W} (hk : k ≤ W - 1) (h : f.toInt = -2 ^ (W - 1)) :
    (asr f k).toInt = -2 ^ (W - 1 - k) := by
  have hpow : (2 : Int) ^ (W - 1) = 2 ^ (W - 1 - k) * 2 ^ k := by rw [← pow_add, Nat.sub_add_cancel hk]
  rw [asr_toInt, h, hpow, ← neg_mul, Int.mul_ediv_cancel _ (by positivity)]

theorem isClockwiseStep_ne {old new : RawState} (h : isClockwiseStep old new = true) : new ≠ old := by
  revert old new; decide

theorem isCounterClockwiseStep_ne {old new : RawState} (h : isCounterClockwiseStep old new = true) : new ≠ old := by
  revert old new; decide

theorem romRead_toInt_of_clockwise {old new : RawState} (h : isClockwiseStep old new = true) :
    (romRead (transitionIndex old new)).toInt = 1 := by
  rw [romRead_transitionIndex_toInt, if_pos h]

theorem romRead_toInt_of_counterClockwise {old new : RawState} (h : isCounterClockwiseStep old new = true) :
    (romRead (transitionIndex old new)).toInt = -1 := by
  revert old new; decide

theorem sampleStep_clockwise_from_top {W : Nat} (hW : 0 < W) {raw : RawState} {d : Decoder W}
    (h : isClockwiseStep d.lastRawState raw = true) (htop : d.finePosition.toInt = 2 ^ (W - 1) - 1) :
    (sampleStep raw d).finePosition.toInt = -2 ^ (W - 1) := by
  rw [sampleStep_finePosition_eq_ofInt, romRead_toInt_of_clockwise h, htop, Int.sub_add_cancel,
    toInt_ofInt_above_top hW]

theorem sampleStep_counterClockwise_from_bottom {W : Nat} (hW : 0 < W) {raw : RawState} {d : Decoder W}
    (h : isCounterClockwiseStep d.lastRawState raw = true) (hbottom : d.finePosition.toInt = -2 ^ (W - 1)) :
    (sampleStep raw d).finePosition.toInt = 2 ^ (W - 1) - 1 := by
  rw [sampleStep_finePosition_eq_ofInt, romRead_toInt_of_counterClockwise h, hbottom, ← Int.sub_eq_add_neg,
    toInt_ofInt_below_bottom hW]

/-- A SAMPLE that latches, and then a query: the position is the new counter shifted down, and the query compares it
with the snapshot, which SAMPLE left as it was (R66, R111). -/
theorem latchingSample_then_getDirection {s : State} {d : Decoder s.posW} {f l : Int} {x : Direction}
    (hd : s.decoder = some d) (hraw : s.ports.pins.raw ≠ d.lastRawState)
    (hp : isLatchPoint d.mode s.ports.pins.raw = true)
    (hf : (sampleStep s.ports.pins.raw d).finePosition.toInt = f)
    (hl : (asr (sampleStep s.ports.pins.raw d).finePosition (modeShift d.mode)).toInt = l)
    (hx : ∀ v : Word s.posW, v.toInt = l → directionOf d.logicalPositionPrev v = x) :
    ∃ t, exec .sample s = .next t ∧ t.fine = some f ∧ t.logical = some l ∧
      ∃ u, exec .getDirection t = .next u ∧ u.result = .direction x := by
  rw [← sampleStep_logicalPosition_of_latchPoint hraw hp] at hl
  refine ⟨_, exec_sample_of_some hd, congrArg some hf, congrArg some hl, _, exec_getDirection_of_some rfl, ?_⟩
  rw [sampleStep_logicalPositionPrev, hx _ hl]

/-- Settles O36: the wrapped counter latches to the other end of the latched range, and the snapshot still holds this
end. -/
theorem wrapReportsTheOtherDirection : Obligations.WrapReportsTheOtherDirection := by
  rintro s d _ hW hd hp rfl hprev hlatched
  have hpos : 0 < s.posW := Nat.lt_of_lt_of_le (by decide) hW
  have hk : modeShift d.mode ≤ s.posW - 1 := (modeShift_le_two d.mode).trans (Nat.sub_le_sub_right hW 1)
  have hrange : (0 : Int) < 2 ^ (s.posW - 1 - modeShift d.mode) := by positivity
  have hlogical : s.logical = some d.logicalPosition.toInt := by simp [State.logical, hd]
  constructor
  · intro hstep htop
    have hold := asr_toInt_of_top hk htop
    rw [← hlatched] at hold
    have hfine := sampleStep_clockwise_from_top hpos hstep htop
    refine ⟨hlogical.trans (congrArg some hold), latchingSample_then_getDirection hd (isClockwiseStep_ne hstep) hp hfine
      (asr_toInt_of_bottom hk hfine) fun v hv => directionOf_of_gt ?_⟩
    rw [← hprev, hold, hv]
    omega
  · intro hstep hbottom
    have hold := asr_toInt_of_bottom hk hbottom
    rw [← hlatched] at hold
    have hfine := sampleStep_counterClockwise_from_bottom hpos hstep hbottom
    refine ⟨hlogical.trans (congrArg some hold), latchingSample_then_getDirection hd (isCounterClockwiseStep_ne hstep)
      hp hfine (asr_toInt_of_top hk hfine) fun v hv => directionOf_of_lt ?_⟩
    rw [← hprev, hold, hv]
    omega

end Sys2Proof.Machine
end

section
/-! PROOF. The transition table: what each of its entries does as a micro-operation (R75 to R91), that SAMPLE counts by
the line that moved (R93 (f)), and that a way out and the same way back cancel (R93 (c)). -/

namespace Sys2Proof.Machine

/-! The three words of the table on W bits, and an entry by the word it holds. -/

theorem sextWord_plus_one (W : Nat) : sextWord W 0b01#2 = BitVec.ofInt W 1 := rfl

theorem sextWord_minus_one (W : Nat) : sextWord W 0b11#2 = -BitVec.ofInt W 1 := by
  rw [← BitVec.ofInt_neg]; rfl

@[simp] theorem countDelta_zero {W : Nat} (d : Decoder W) : countDelta 0b00#2 d = d := by
  simp [countDelta]

theorem exec_decodeRom_of_word_zero {s : State} {idx : TransitionIndex} (hs : s.constructed = true)
    (hword : romRead idx = 0b00#2) : exec (decodeRom idx) s = .next { s with result := .nothing } := by
  obtain ⟨d, hd⟩ := exists_decoder_of_constructed hs
  rw [exec_decodeRom_of_some idx hd, hword, countDelta_zero, ← hd]

theorem exec_decodeRom_of_word_plus_one {s : State} {d : Decoder s.posW} {idx : TransitionIndex}
    (hd : s.decoder = some d) (hword : romRead idx = 0b01#2) :
    exec (decodeRom idx) s = .next
      { s with
        decoder := some { d with finePosition := d.finePosition + BitVec.ofInt s.posW 1 }
        result := .nothing } := by
  rw [exec_decodeRom_of_some idx hd, hword, countDelta, sextWord_plus_one]

theorem exec_decodeRom_of_word_minus_one {s : State} {d : Decoder s.posW} {idx : TransitionIndex}
    (hd : s.decoder = some d) (hword : romRead idx = 0b11#2) :
    exec (decodeRom idx) s = .next
      { s with
        decoder := some { d with finePosition := d.finePosition - BitVec.ofInt s.posW 1 }
        result := .nothing } := by
  rw [exec_decodeRom_of_some idx hd, hword, countDelta, sextWord_minus_one, BitVec.sub_eq_add_neg]

/-! The sixteen entries, by class. The pairs, words and classes are the constants of the table. -/

/-- Settles O37: each of the four entries holds the word 01. -/
theorem clockwiseEntriesAddOne : Obligations.ClockwiseEntriesAddOne := by
  refine ⟨fun e he => by fin_cases he <;> exact ⟨rfl, rfl, rfl⟩, ?_⟩
  rintro s d i hd (rfl | rfl | rfl | rfl)
  · exact exec_decodeRom_of_word_plus_one (idx := 0b0010#4) hd rfl
  · exact exec_decodeRom_of_word_plus_one (idx := 0b1011#4) hd rfl
  · exact exec_decodeRom_of_word_plus_one (idx := 0b1101#4) hd rfl
  · exact exec_decodeRom_of_word_plus_one (idx := 0b0100#4) hd rfl

/-- Settles O38: each of the four entries holds the word 11. -/
theorem counterClockwiseEntriesTakeOne : Obligations.CounterClockwiseEntriesTakeOne := by
  refine ⟨fun e he => by fin_cases he <;> exact ⟨rfl, rfl, rfl⟩, ?_⟩
  rintro s d i hd (rfl | rfl | rfl | rfl)
  · exact exec_decodeRom_of_word_minus_one (idx := 0b0001#4) hd rfl
  · exact exec_decodeRom_of_word_minus_one (idx := 0b0111#4) hd rfl
  · exact exec_decodeRom_of_word_minus_one (idx := 0b1110#4) hd rfl
  · exact exec_decodeRom_of_word_minus_one (idx := 0b1000#4) hd rfl

/-- Settles O39: each of the four entries holds the word 00. -/
theorem invalidEntriesCountNothing : Obligations.InvalidEntriesCountNothing := by
  refine ⟨fun e he => by fin_cases he <;> exact ⟨rfl, rfl, rfl⟩, ?_⟩
  rintro s i hs (rfl | rfl | rfl | rfl)
  · exact exec_decodeRom_of_word_zero (idx := 0b0011#4) hs rfl
  · exact exec_decodeRom_of_word_zero (idx := 0b0110#4) hs rfl
  · exact exec_decodeRom_of_word_zero (idx := 0b1001#4) hs rfl
  · exact exec_decodeRom_of_word_zero (idx := 0b1100#4) hs rfl

/-- A changed pair never forms the index of an unchanged one (R76). -/
theorem transitionIndex_ne_diagonal {old new : RawState} (h : new ≠ old) (r : RawState) :
    transitionIndex old new ≠ transitionIndex r r := by
  revert old new r; decide

/-- Settles O40: each of the four entries holds the word 00, and 0, 5, 10 and 15 are the indices of the pairs r-r, which
a changed SAMPLE does not form. -/
theorem unchangedEntriesCountNothing : Obligations.UnchangedEntriesCountNothing := by
  refine ⟨fun e he => by fin_cases he <;> exact ⟨rfl, rfl, rfl⟩, ?_⟩
  rintro s d _ hd rfl
  have hs : s.constructed = true := Option.isSome_iff_exists.mpr ⟨d, hd⟩
  refine ⟨?_, exec_sample_of_unchanged hd, fun hraw => ?_⟩
  · rintro i (rfl | rfl | rfl | rfl)
    · exact exec_decodeRom_of_word_zero (idx := 0b0000#4) hs rfl
    · exact exec_decodeRom_of_word_zero (idx := 0b0101#4) hs rfl
    · exact exec_decodeRom_of_word_zero (idx := 0b1010#4) hs rfl
    · exact exec_decodeRom_of_word_zero (idx := 0b1111#4) hs rfl
  · have hne := transitionIndex_ne_diagonal hraw
    exact ⟨hne 0#2, hne 1#2, hne 2#2, hne 3#2, _, exec_sample_of_some hd, sampleStep_finePosition _ d⟩

/-- Settles O45: the count of `decodeRom_next` is a write of the counter. -/
theorem romEntryFrame : Obligations.RomEntryFrame := by
  intro s t idx h
  obtain ⟨d, hd, rfl⟩ := decodeRom_next h
  exact ⟨d, _, hd, rfl⟩

/-! The sign by the line that moved (R93 (f)). -/

/-- When exactly one line changed the table's word is not 0, and its sign is by which line it was and whether the new
levels are equal. -/
theorem romRead_transitionIndex_of_one_change {old new : RawState}
    (h : new.getLsbD 0 ≠ old.getLsbD 0 ↔ new.getLsbD 1 = old.getLsbD 1) :
    romRead (transitionIndex old new) =
      if (new.getLsbD 0 ≠ old.getLsbD 0 ∧ new.getLsbD 0 = new.getLsbD 1) ∨
          (new.getLsbD 1 ≠ old.getLsbD 1 ∧ new.getLsbD 1 ≠ new.getLsbD 0) then 0b01#2
      else 0b11#2 := by
  revert old new; decide

/-- Settles O19: SAMPLE counts the table's word for the pair, which is 01 or 11. -/
theorem countFollowsTheLineThatMoved : Obligations.CountFollowsTheLineThatMoved := by
  rintro s d _ _ _ _ hd rfl rfl rfl rfl hone
  refine ⟨_, exec_sample_of_some hd, ?_⟩
  rw [sampleStep_finePosition, romRead_transitionIndex_of_one_change hone]
  split
  · rw [sextWord_plus_one]
  · rw [sextWord_minus_one, BitVec.sub_eq_add_neg]

/-! A way out and the same way back (R93 (c), R103). -/

theorem finalRaw_append (start : RawState) (xs ys : List RawState) :
    finalRaw start (xs ++ ys) = finalRaw (finalRaw start xs) ys := by
  induction xs generalizing start with
  | nil => rfl
  | cons x xs ih => exact ih x

theorem netSteps_append (start : RawState) (xs ys : List RawState) :
    netSteps start (xs ++ ys) = netSteps start xs + netSteps (finalRaw start xs) ys := by
  induction xs generalizing start with
  | nil => simp [netSteps, finalRaw]
  | cons x xs ih => simp only [List.cons_append, netSteps, finalRaw, ih, Int.add_assoc]

/-- A change and its reverse have opposite counts, or both count 0 (R93 (c)). -/
theorem netSteps_there_and_back (old new : RawState) : netSteps old [new] + netSteps new [old] = 0 := by
  revert old new; decide

/-- The way out and back is its first change, the way out and back from there, and the first change undone. -/
theorem outAndBack_cons (start r : RawState) (raws : List RawState) :
    outAndBack start (r :: raws) = [r] ++ (outAndBack r raws ++ [start]) := by
  simp [outAndBack]

@[simp] theorem finalRaw_outAndBack (start : RawState) (raws : List RawState) :
    finalRaw start (outAndBack start raws) = start := by
  cases raws with
  | nil => rfl
  | cons r raws => rw [outAndBack_cons, finalRaw_append, finalRaw_append, finalRaw, finalRaw]

@[simp] theorem netSteps_outAndBack (start : RawState) (raws : List RawState) :
    netSteps start (outAndBack start raws) = 0 := by
  induction raws generalizing start with
  | nil => rfl
  | cons r raws ih =>
    calc netSteps start (outAndBack start (r :: raws))
        = netSteps start [r] + (netSteps r (outAndBack r raws) + netSteps r [start]) := by
          rw [outAndBack_cons, netSteps_append, netSteps_append]
          simp only [finalRaw, finalRaw_outAndBack]
      _ = 0 := by rw [ih, Int.zero_add, netSteps_there_and_back]

/-- Sampling RawStates from a constructed decoder is `sampleRun` on the registers. -/
theorem runTrace_sampleRaws {s : State} {d : Decoder s.posW} (hd : s.decoder = some d) (raws : List RawState) :
    ∃ r : Result s.posW, runTrace (raws.map sampleRaw) s =
      .next (State.feed [] { s with decoder := some (sampleRun raws d), result := r }) := by
  have hlines : raws.map sampleRaw = (raws.map Pins.ofRaw).map TraceLine.sample := by
    rw [List.map_map]; rfl
  have hraws : (raws.map Pins.ofRaw).map Pins.raw = raws := by
    simp [Function.comp_def]
  rw [hlines]
  simpa only [hraws] using runTrace_samples hd (raws.map Pins.ofRaw)

/-- The counter after the way out and back, with no bound on it: a wrap on the way out is undone on the way back. -/
theorem sampleRun_outAndBack_finePosition {W : Nat} (raws : List RawState) (d : Decoder W) :
    (sampleRun (outAndBack d.lastRawState raws) d).finePosition = d.finePosition := by
  simp [sampleRun_finePosition]

theorem sampleRun_outAndBack_lastRawState {W : Nat} (raws : List RawState) (d : Decoder W) :
    (sampleRun (outAndBack d.lastRawState raws) d).lastRawState = d.lastRawState := by
  rw [sampleRun_lastRawState, finalRaw_outAndBack]

/-- Settles O24: the net steps of the way out and back are 0, and it ends where it began. -/
theorem outAndBackCancels : Obligations.OutAndBackCancels := by
  intro s d raws hd
  obtain ⟨r, hrun⟩ := runTrace_sampleRaws hd (outAndBack d.lastRawState raws)
  refine ⟨_, hrun, ?_, ?_⟩
  · rw [State.fine, State.fine, hd]
    exact congrArg (some ·.toInt) (sampleRun_outAndBack_finePosition raws d)
  · rw [State.lastRaw, State.lastRaw, hd]
    exact congrArg some (sampleRun_outAndBack_lastRawState raws d)

end Sys2Proof.Machine
end

section
/-! PROOF. The invariants of the position latch that every step keeps while the operands are in range: both positions
stay in the range of latched values (R107, R114), and at a latch point the position is the counter shifted down
(R98). -/

namespace Sys2Proof.Machine

/-! The counter after an override, as an integer (R106, R107). -/

theorem shiftLeft_ofInt (W k : Nat) (v : Int) : BitVec.ofInt W v <<< k = BitVec.ofInt W (2 ^ k * v) := by
  have htwoPow : BitVec.twoPow W k = BitVec.ofInt W (2 ^ k) := by
    apply BitVec.eq_of_toNat_eq
    rw [BitVec.toNat_twoPow, BitVec.toNat_ofInt]
    exact_mod_cast (Int.toNat_natCast _).symm
  rw [BitVec.shiftLeft_eq_mul_twoPow, htwoPow, BitVec.ofInt_mul, BitVec.mul_comm]

/-- The remainder by a power of two within the width does not see whether the word is read signed or unsigned. -/
theorem toInt_emod_two_pow {W k : Nat} (hk : k ≤ W) (f : Word W) : f.toInt % 2 ^ k = f.toNat % 2 ^ k := by
  have hdvd : (2 : Int) ^ k ∣ ((2 ^ W : Nat) : Int) := by exact_mod_cast pow_dvd_pow 2 hk
  rw [BitVec.toInt_eq_toNat_bmod, ← Int.emod_emod_of_dvd _ hdvd, Int.bmod_emod, Int.emod_emod_of_dvd _ hdvd]

theorem phaseBits_eq_ofInt {W k : Nat} (hk : k ≤ W) (f : Word W) :
    phaseBits k f = BitVec.ofInt W (f.toInt % 2 ^ k) := by
  have hmask : (2 ^ k - 1) % 2 ^ W = 2 ^ k - 1 :=
    Nat.mod_eq_of_lt (Nat.lt_of_lt_of_le (Nat.sub_one_lt (by positivity)) (Nat.pow_le_pow_right two_pos hk))
  have hphase : f.toInt % 2 ^ k = ((f.toNat % 2 ^ k : Nat) : Int) := by rw [toInt_emod_two_pow hk]; norm_cast
  apply BitVec.eq_of_toNat_eq
  rw [hphase, BitVec.ofInt_natCast, phaseBits, BitVec.toNat_and, BitVec.toNat_ofNat, BitVec.toNat_ofNat, hmask,
    Nat.and_two_pow_sub_one_eq_mod, Nat.mod_eq_of_lt ((Nat.mod_le _ _).trans_lt f.isLt)]

/-- The shifted operand and the phase have no bit in common, so putting them together is adding them. -/
theorem overrideFine_eq_add {W k : Nat} (posIn fine : Word W) :
    overrideFine k posIn fine = posIn <<< k + phaseBits k fine := by
  refine (BitVec.add_eq_or_of_and_eq_zero _ _ ?_).symm
  apply BitVec.eq_of_getLsbD_eq
  intro j _
  by_cases hj : j < k
  · simp [hj]
  · simp [phaseBits, BitVec.getLsbD_ofNat, Nat.testBit_two_pow_sub_one, hj]

/-- `2^k` times a value in the latched range, with any phase below it, is in the range of the counter. -/
theorem InLatchRange.mul_add_phase {W k : Nat} {v x : Int} (hk : k < W) (hv : InLatchRange W k v) (hlo : 0 ≤ x)
    (hhi : x < 2 ^ k) : -2 ^ (W - 1) ≤ 2 ^ k * v + x ∧ 2 ^ k * v + x < 2 ^ (W - 1) := by
  obtain ⟨hvlo, hvhi⟩ := hv
  have hpow : (2 : Int) ^ (W - 1) = 2 ^ k * 2 ^ (W - 1 - k) := by
    rw [← pow_add, Nat.add_sub_cancel' (Nat.le_sub_one_of_lt hk)]
  have hpos : (0 : Int) ≤ 2 ^ k := by positivity
  have hmin := mul_le_mul_of_nonneg_left hvlo hpos
  have hmax := mul_le_mul_of_nonneg_left (Int.add_one_le_of_lt hvhi) hpos
  constructor <;> linarith

/-- With an operand in range nothing is truncated: the counter is `2^k · v` with its old phase (R107). -/
theorem overrideFine_toInt {W k : Nat} {v : Int} (hk : k < W) (hv : InLatchRange W k v) (f : Word W) :
    (overrideFine k (BitVec.ofInt W v) f).toInt = 2 ^ k * v + f.toInt % 2 ^ k := by
  obtain ⟨hlo, hhi⟩ := hv.mul_add_phase hk (Int.emod_nonneg f.toInt (by positivity))
    (Int.emod_lt_of_pos f.toInt (by positivity))
  rw [overrideFine_eq_add, shiftLeft_ofInt, phaseBits_eq_ofInt hk.le, ← BitVec.ofInt_add,
    BitVec.toInt_ofInt_eq_self (Nat.zero_lt_of_lt hk) hlo hhi]

theorem InLatchRange.toInt_ofInt {W k : Nat} {v : Int} (hk : k < W) (hv : InLatchRange W k v) :
    (BitVec.ofInt W v).toInt = v := by
  obtain ⟨hvlo, hvhi⟩ := hv
  have hpow : (2 : Int) ^ (W - 1 - k) ≤ 2 ^ (W - 1) := pow_le_pow_right₀ (by decide) (Nat.sub_le _ _)
  exact BitVec.toInt_ofInt_eq_self (Nat.zero_lt_of_lt hk) (by omega) (by omega)

/-- The counter after an override with an operand in range shifts back to the operand (R107). -/
theorem asr_overrideFine {W k : Nat} {v : Int} (hk : k < W) (hv : InLatchRange W k v) (f : Word W) :
    asr (overrideFine k (BitVec.ofInt W v) f) k = BitVec.ofInt W v := by
  have hpos : (0 : Int) < 2 ^ k := by positivity
  apply BitVec.eq_of_toInt_eq
  rw [asr_toInt, overrideFine_toInt hk hv, hv.toInt_ofInt hk, Int.mul_add_ediv_left _ _ hpos.ne',
    Int.ediv_eq_zero_of_lt (Int.emod_nonneg _ hpos.ne') (Int.emod_lt_of_pos _ hpos), Int.add_zero]

/-! The range of latched values. -/

/-- Shifting any counter down gives a latched value (R114). -/
theorem asr_inLatchRange {W k : Nat} (hk : k < W) (f : Word W) : InLatchRange W k (asr f k).toInt := by
  have hlo : -2 ^ (W - 1) ≤ f.toInt := BitVec.le_toInt f
  have hhi : f.toInt < 2 ^ (W - 1) := BitVec.toInt_lt
  have hpow : (2 : Int) ^ (W - 1) = 2 ^ (W - 1 - k) * 2 ^ k := by
    rw [← pow_add, Nat.sub_add_cancel (Nat.le_sub_one_of_lt hk)]
  have hpos : (0 : Int) < 2 ^ k := by positivity
  rw [asr_toInt]
  exact ⟨(Int.le_ediv_iff_mul_le hpos).mpr (by linarith), (Int.ediv_lt_iff_lt_mul hpos).mpr (by linarith)⟩

theorem zero_inLatchRange (W k : Nat) : InLatchRange W k 0 :=
  ⟨neg_nonpos.mpr (by positivity), by positivity⟩

/-- A larger shift leaves a narrower range. -/
theorem InLatchRange.mono {W j k : Nat} {v : Int} (hjk : j ≤ k) (hv : InLatchRange W k v) : InLatchRange W j v := by
  obtain ⟨hlo, hhi⟩ := hv
  have hpow : (2 : Int) ^ (W - 1 - k) ≤ 2 ^ (W - 1 - j) :=
    pow_le_pow_right₀ (by decide) (Nat.sub_le_sub_left hjk _)
  exact ⟨(neg_le_neg hpow).trans hlo, hhi.trans_le hpow⟩

/-- Both positions hold latched values of the mode. -/
def Decoder.positionsInRange {W : Nat} (d : Decoder W) : Prop :=
  InLatchRange W (modeShift d.mode) d.logicalPosition.toInt ∧
    InLatchRange W (modeShift d.mode) d.logicalPositionPrev.toInt

theorem positionsInRange_iff (s : State) : PositionsInRange s ↔ ∀ d, s.decoder = some d → d.positionsInRange := Iff.rfl

theorem modeShift_lt_of_minPosW_le {W : Nat} (hW : Config.minPosW ≤ W) (m : LatchMode) : modeShift m < W :=
  (Nat.lt_succ_of_le (modeShift_le_two m)).trans_le hW

/-! Each operation on the registers keeps the range. -/

theorem constructDecoder_positionsInRange {W : Nat} (mode : LatchMode) (raw : RawState) :
    (constructDecoder mode raw : Decoder W).positionsInRange := by
  simp [Decoder.positionsInRange, zero_inLatchRange]

/-- SAMPLE keeps the position or loads it with the counter shifted down (R98). -/
theorem sampleStep_positionsInRange {W : Nat} (hW : Config.minPosW ≤ W) {raw : RawState} {d : Decoder W}
    (h : d.positionsInRange) : (sampleStep raw d).positionsInRange := by
  obtain ⟨hlogical, hprev⟩ := h
  refine ⟨?_, by rwa [sampleStep_mode, sampleStep_logicalPositionPrev]⟩
  rw [sampleStep_mode, sampleStep_logicalPosition]
  split
  · rw [latchVal_modeBits]
    exact asr_inLatchRange (modeShift_lt_of_minPosW_le hW d.mode) _
  · exact hlogical

theorem overridePosition_positionsInRange {W : Nat} {v : Int} {d : Decoder W} (hk : modeShift d.mode < W)
    (hv : InLatchRange W (modeShift d.mode) v) : (overridePosition (BitVec.ofInt W v) d).positionsInRange := by
  have hposition : InLatchRange W (modeShift d.mode) (BitVec.ofInt W v).toInt := by rwa [hv.toInt_ofInt hk]
  exact ⟨hposition, hposition⟩

theorem snapshot_positionsInRange {W : Nat} {d : Decoder W} (h : d.positionsInRange) :
    (snapshot d).positionsInRange :=
  ⟨h.1, h.1⟩

/-! And so for the latch at rest; CONSTRUCT and SAMPLE are `constructDecoder_latched` and `sampleStep_latched`. -/

theorem overridePosition_latched {W : Nat} {v : Int} {d : Decoder W} (hk : modeShift d.mode < W)
    (hv : InLatchRange W (modeShift d.mode) v) : (overridePosition (BitVec.ofInt W v) d).latched :=
  fun _ => (asr_overrideFine hk hv d.finePosition).symm

/-! The step. -/

/-- A predicate of the registers that CONSTRUCT, SAMPLE, SET_POSITION with an operand in range for every mode, and
GET_DIRECTION keep, every step keeps: no other operation on the ports writes a register, and reset leaves none. -/
theorem step_keeps_of_registers {P : ∀ {W : Nat}, Decoder W → Prop} {s t : State} (hs : ∀ d, s.decoder = some d → P d)
    (hconstruct : ∀ mode raw, P (constructDecoder mode raw : Decoder s.posW))
    (hsample : ∀ raw (d : Decoder s.posW), P d → P (sampleStep raw d))
    (hset : ∀ v (d : Decoder s.posW), InLatchRange s.posW (modeShift d.mode) v →
      P (overridePosition (BitVec.ofInt s.posW v) d))
    (hquery : ∀ d : Decoder s.posW, P d → P (snapshot d))
    (hoperands : OperandsInRange s) (h : step s = .next t) : ∀ d, t.decoder = some d → P d := by
  obtain ⟨_, rfl⟩ | ⟨_, u, hu, rfl⟩ := step_next h
  · exact nofun
  obtain hi | ⟨m, hi⟩ | hi | hi | ⟨v, hi⟩ | hi | hi | hi := decode_cases s.ports.cmd <;> rw [fetch, hi] at hu
  · cases hu; exact hs
  · obtain ⟨_, mode, _, rfl⟩ := construct_next hu
    rintro _ ⟨⟩; exact hconstruct _ _
  · obtain ⟨d, hd, rfl⟩ := sample_next hu
    rintro _ ⟨⟩; exact hsample _ d (hs d hd)
  · obtain ⟨d, _, rfl⟩ := getPosition_next hu
    exact hs
  · obtain ⟨d, _, rfl⟩ := setPosition_next hu
    have hv : InLatchRange s.posW 2 v := hoperands _ List.mem_cons_self v hi
    rintro _ ⟨⟩; exact hset v d (hv.mono (modeShift_le_two d.mode))
  · obtain ⟨d, hd, rfl⟩ := getDirection_next hu
    rintro _ ⟨⟩; exact hquery d (hs d hd)
  · cases hu
  · cases hu

/-- A step uses up one of the environment's inputs and adds none but idle ones. -/
theorem step_keeps_operandsInRange {s t : State} (hs : OperandsInRange s) (h : step s = .next t) :
    OperandsInRange t := by
  obtain ⟨_, rfl⟩ | ⟨_, u, hu, rfl⟩ := step_next h
  · exact takePorts_operandsInRange (s := hardReset s) hs
  · obtain ⟨_, _, rfl⟩ := exec_writes_decoder_and_result hu
    exact takePorts_operandsInRange (s := { s with decoder := _, result := _ }) hs

/-- Settles O57: each operation keeps both positions in the range, an override because its operand is in range. -/
theorem stepKeepsPositionsInRange : Obligations.StepKeepsPositionsInRange := by
  intro s t hw hoperands hs h
  have hk := modeShift_lt_of_minPosW_le hw
  refine ⟨step_keeps_widthOk hw h, step_keeps_operandsInRange hoperands h, ?_⟩
  exact step_keeps_of_registers (P := Decoder.positionsInRange) hs constructDecoder_positionsInRange
    (fun _ _ => sampleStep_positionsInRange hw) (fun _ d => overridePosition_positionsInRange (hk d.mode))
    (fun _ => snapshot_positionsInRange) hoperands h

/-- Settles O58: each operation keeps the position at a latch point the counter shifted down; an override because
nothing of an operand in range is truncated, and the snapshot plays no part. -/
theorem stepKeepsLatchedAtRest : Obligations.StepKeepsLatchedAtRest := by
  intro s t hw hoperands hs h
  have hk := modeShift_lt_of_minPosW_le hw
  refine ⟨step_keeps_widthOk hw h, step_keeps_operandsInRange hoperands h, ?_⟩
  exact step_keeps_of_registers (P := Decoder.latched) hs constructDecoder_latched
    (fun _ _ => sampleStep_latched) (fun _ d => overridePosition_latched (hk d.mode)) (fun _ hd => hd) hoperands h

end Sys2Proof.Machine
end

section
/-! PROOF. The latch rule (R97, R98), and runs of samples that end in a latch: the same way back latches the same value
(R103), and an override before the run shifts what is latched at its end (R108). -/

namespace Sys2Proof.Machine

/-! The latch rule. -/

/-- Settles O14: the rule of `sampleStep_logicalPosition`, with the gates and the mux written out. -/
theorem sampleLatchRule : Obligations.SampleLatchRule := by
  rintro s d _ _ hd rfl rfl
  exact ⟨_, exec_sample_of_some hd, sampleStep_logicalPosition _ d⟩

/-! The same way back. -/

/-- The way out and back ends at the latch point with the old counter, and there the position is the counter shifted
down. -/
theorem sampleRun_outAndBack_logicalPosition {W : Nat} {d : Decoder W} (raws : List RawState) (h : d.latched)
    (hp : isLatchPoint d.mode d.lastRawState = true) :
    (sampleRun (outAndBack d.lastRawState raws) d).logicalPosition = d.logicalPosition := by
  have hend := sampleRun_latched (raws := outAndBack d.lastRawState raws) h
  rw [hend (by rwa [sampleRun_mode, sampleRun_outAndBack_lastRawState]), sampleRun_outAndBack_finePosition,
    sampleRun_mode, h hp]

/-- Settles O25: the machine's run is `sampleRun`, and a latch point just latched is a latch at rest. -/
theorem reversalKeepsTheLatchedValue : Obligations.ReversalKeepsTheLatchedValue := by
  intro s d raws hd hp hlatched
  obtain ⟨r, hrun⟩ := runTrace_sampleRaws hd (outAndBack d.lastRawState raws)
  refine ⟨_, hrun, ?_⟩
  rw [State.logical, State.logical, hd]
  exact congrArg (some ·.toInt) (sampleRun_outAndBack_logicalPosition raws (fun _ => hlatched) hp)

/-! The counters after a run, as integers, when the run is too short to wrap. -/

theorem runTrace_samples_registers {s : State} {d : Decoder s.posW} (hd : s.decoder = some d) (pins : List Pins) :
    ∃ t, runTrace (pins.map TraceLine.sample) s = .next t ∧
      t.fine = some (sampleRun (pins.map Pins.raw) d).finePosition.toInt ∧
      t.logical = some (sampleRun (pins.map Pins.raw) d).logicalPosition.toInt := by
  obtain ⟨r, hrun⟩ := runTrace_samples hd pins
  exact ⟨_, hrun, rfl, rfl⟩

/-- A sample counts at most one step either way. -/
theorem netSteps_bounds (start : RawState) (raws : List RawState) :
    -(raws.length : Int) ≤ netSteps start raws ∧ netSteps start raws ≤ raws.length := by
  induction raws generalizing start with
  | nil => simp [netSteps]
  | cons r raws ih =>
    obtain ⟨hlo, hhi⟩ := ih r
    rw [netSteps, List.length_cons, Nat.cast_succ]
    split_ifs <;> omega

/-- A run too short to reach either end of the counter moves it by its net steps, as integers (R74). -/
theorem sampleRun_finePosition_toInt {W : Nat} {raws : List RawState} {d : Decoder W} (hW : 0 < W)
    (hlo : -2 ^ (W - 1) ≤ d.finePosition.toInt - raws.length)
    (hhi : d.finePosition.toInt + raws.length < 2 ^ (W - 1)) :
    (sampleRun raws d).finePosition.toInt = d.finePosition.toInt + netSteps d.lastRawState raws := by
  obtain ⟨hmin, hmax⟩ := netSteps_bounds d.lastRawState raws
  rw [sampleRun_finePosition, ← BitVec.ofInt_toInt (x := d.finePosition), ← BitVec.ofInt_add, BitVec.ofInt_toInt,
    BitVec.toInt_ofInt_eq_self hW (by omega) (by omega)]

/-! A run that ends in a latch. -/

theorem sampleRun_concat {W : Nat} (raws : List RawState) (last : RawState) (d : Decoder W) :
    sampleRun (raws ++ [last]) d = sampleStep last (sampleRun raws d) := by
  simp [sampleRun]

/-- The latch at the end of a run too short to wrap loads the floor of the first counter plus the net steps over the
step factor (R98, R100). -/
theorem sampleRun_concat_logicalPosition_toInt {W : Nat} {raws : List RawState} {last : RawState} {d : Decoder W}
    (hW : 0 < W) (hlast : last ≠ finalRaw d.lastRawState raws) (hp : isLatchPoint d.mode last = true)
    (hlo : -2 ^ (W - 1) ≤ d.finePosition.toInt - (raws.length + 1))
    (hhi : d.finePosition.toInt + (raws.length + 1) < 2 ^ (W - 1)) :
    (sampleRun (raws ++ [last]) d).logicalPosition.toInt =
      (d.finePosition.toInt + netSteps d.lastRawState (raws ++ [last])) / 2 ^ modeShift d.mode := by
  have hlatch : (sampleRun (raws ++ [last]) d).logicalPosition =
      asr (sampleRun (raws ++ [last]) d).finePosition (modeShift d.mode) := by
    rw [sampleRun_concat, sampleStep_logicalPosition_of_latchPoint (by rwa [sampleRun_lastRawState])
      (by rwa [sampleRun_mode]), sampleRun_mode]
  rw [hlatch, asr_toInt, sampleRun_finePosition_toInt hW (by simpa using hlo) (by simpa using hhi)]

/-! An override before the run. -/

@[simp] theorem overridePosition_lastRawState {W : Nat} (posIn : Word W) (d : Decoder W) :
    (overridePosition posIn d).lastRawState = d.lastRawState := rfl
@[simp] theorem overridePosition_mode {W : Nat} (posIn : Word W) (d : Decoder W) :
    (overridePosition posIn d).mode = d.mode := rfl

theorem overridePosition_finePosition_toInt {W : Nat} {v : Int} {d : Decoder W} (hk : modeShift d.mode < W)
    (hv : InLatchRange W (modeShift d.mode) v) :
    (overridePosition (BitVec.ofInt W v) d).finePosition.toInt =
      2 ^ modeShift d.mode * v + d.finePosition.toInt % 2 ^ modeShift d.mode :=
  overrideFine_toInt hk hv d.finePosition

/-- Replacing the quotient of `f` by `v` and keeping its remainder moves every later quotient by `v` minus the old
quotient. -/
theorem mul_add_emod_add_ediv {F : Int} (hF : 0 < F) (f v n : Int) :
    (F * v + f % F + n) / F = (f + n) / F + (v - f / F) := by
  have hsplit : F * v + f % F + n = (f + n) + F * (v - f / F) := by rw [Int.emod_def]; ring
  rw [hsplit, Int.add_mul_ediv_left _ _ hF.ne']

theorem sampleRun_overridePosition_logicalPosition_toInt {W : Nat} {v : Int} {raws : List RawState} {last : RawState}
    {d : Decoder W} (hW : Config.minPosW ≤ W) (hv : InLatchRange W (modeShift d.mode) v)
    (hlast : last ≠ finalRaw d.lastRawState raws) (hp : isLatchPoint d.mode last = true)
    (hlo : -2 ^ (W - 1) ≤ 2 ^ modeShift d.mode * v - (raws.length + 1))
    (hhi : 2 ^ modeShift d.mode * v + 2 ^ modeShift d.mode + (raws.length + 1) ≤ 2 ^ (W - 1)) :
    (sampleRun (raws ++ [last]) (overridePosition (BitVec.ofInt W v) d)).logicalPosition.toInt =
      (d.finePosition.toInt + netSteps d.lastRawState (raws ++ [last])) / 2 ^ modeShift d.mode +
        (v - d.finePosition.toInt / 2 ^ modeShift d.mode) := by
  have hk := modeShift_lt_of_minPosW_le hW d.mode
  have hfactor : (0 : Int) < 2 ^ modeShift d.mode := by positivity
  have hfine := overridePosition_finePosition_toInt hk hv
  have hphase := Int.emod_nonneg d.finePosition.toInt hfactor.ne'
  have hphase' := Int.emod_lt_of_pos d.finePosition.toInt hfactor
  have hrun := sampleRun_concat_logicalPosition_toInt (d := overridePosition (BitVec.ofInt W v) d)
    (Nat.zero_lt_of_lt hk) hlast hp (by omega) (by omega)
  rw [hrun, hfine, overridePosition_lastRawState, overridePosition_mode, mul_add_emod_add_ediv hfactor]

/-- Settles O28: both runs count the same net steps from their first counters, which differ by `v` minus the old floor
in the quotient by the step factor and not at all in the remainder. -/
theorem overrideShiftsEveryLaterLatch : Obligations.OverrideShiftsEveryLaterLatch := by
  intro s s0 d v pins last hd hW hv hset hlast hp hlo hhi hvlo hvhi
  have hs0 := hset.symm.trans (exec_setPosition_of_some v hd)
  cases hs0
  rw [← List.length_map Pins.raw] at hlo hhi hvlo hvhi
  have hraws : (pins ++ [last]).map Pins.raw = pins.map Pins.raw ++ [last.raw] := by simp
  obtain ⟨a, ha, _, hla⟩ := runTrace_samples_registers hd (pins ++ [last])
  obtain ⟨b, hb, _, hlb⟩ := runTrace_samples_registers
    (s := { s with decoder := some (overridePosition (BitVec.ofInt s.posW v) d), result := .nothing }) rfl
    (pins ++ [last])
  rw [hraws] at hla hlb
  refine ⟨a, b, _, ha, hb, hla.trans (congrArg some (sampleRun_concat_logicalPosition_toInt
    (Nat.lt_of_lt_of_le (by decide) hW) hlast hp hlo hhi)), ?_⟩
  rw [Int.fdiv_eq_ediv_of_nonneg _ (by positivity)]
  exact hlb.trans (congrArg some (sampleRun_overridePosition_logicalPosition_toInt hW hv hlast hp hvlo hvhi))

end Sys2Proof.Machine
end

section
/-! PROOF. How far the two counters drift apart between latches while every transition is valid (R101): no further than
the way from the latest latch point, on top of the interval a latch leaves. -/

namespace Sys2Proof.Machine

/-! How far the lines are from a latch point. -/

/-- How many single steps the lines stand after the mode's latest latch point, when `back` is one step back. The cycle
has four RawStates and every mode latches at one of them at least (R94), so it is at most 3. -/
def stepsSinceLatch (back : RawState → RawState) (mode : LatchMode) (raw : RawState) : Int :=
  if isLatchPoint mode raw then 0
  else if isLatchPoint mode (back raw) then 1
  else if isLatchPoint mode (back (back raw)) then 2
  else 3

/-- The single steps from the latest latch point on a clockwise way to these lines. -/
def clockwiseSinceLatch : LatchMode → RawState → Int := stepsSinceLatch nextCounterClockwise

/-- The single steps from the latest latch point on a counter-clockwise way to these lines. -/
def counterClockwiseSinceLatch : LatchMode → RawState → Int := stepsSinceLatch nextClockwise

theorem clockwiseSinceLatch_bounds (mode : LatchMode) (raw : RawState) :
    0 ≤ clockwiseSinceLatch mode raw ∧ clockwiseSinceLatch mode raw ≤ 2 ^ modeShift mode - 1 := by
  cases mode <;> revert raw <;> decide

theorem counterClockwiseSinceLatch_bounds (mode : LatchMode) (raw : RawState) :
    0 ≤ counterClockwiseSinceLatch mode raw ∧ counterClockwiseSinceLatch mode raw ≤ 2 ^ modeShift mode - 1 := by
  cases mode <;> revert raw <;> decide

/-- A valid transition that does not arrive at a latch point moves the counter up by no more than the lines move on from
the latest latch point clockwise, and down by no more than they move on counter-clockwise. -/
theorem netSteps_le_sinceLatch {mode : LatchMode} {old new : RawState} (hvalid : noInvalidStep old [new] = true)
    (hp : isLatchPoint mode new = false) :
    netSteps old [new] ≤ clockwiseSinceLatch mode new - clockwiseSinceLatch mode old ∧
      -netSteps old [new] ≤ counterClockwiseSinceLatch mode new - counterClockwiseSinceLatch mode old := by
  cases mode <;> revert old new <;> decide

/-! The drift as an invariant of the registers. -/

/-- The counter lies in the step factor's interval above the position, widened by the way from the latest latch
point. -/
def Decoder.withinDrift {W : Nat} (d : Decoder W) : Prop :=
  2 ^ modeShift d.mode * d.logicalPosition.toInt - counterClockwiseSinceLatch d.mode d.lastRawState ≤
      d.finePosition.toInt ∧
    d.finePosition.toInt ≤ 2 ^ modeShift d.mode * d.logicalPosition.toInt + (2 ^ modeShift d.mode - 1) +
      clockwiseSinceLatch d.mode d.lastRawState

/-- In the interval that a latch or an override leaves, the drift is within its bounds wherever the lines stand. -/
theorem Decoder.withinDrift_of_interval {W : Nat} {d : Decoder W}
    (hlo : 2 ^ modeShift d.mode * d.logicalPosition.toInt ≤ d.finePosition.toInt)
    (hhi : d.finePosition.toInt ≤ 2 ^ modeShift d.mode * d.logicalPosition.toInt + 2 ^ modeShift d.mode - 1) :
    d.withinDrift := by
  obtain ⟨hcw, _⟩ := clockwiseSinceLatch_bounds d.mode d.lastRawState
  obtain ⟨hccw, _⟩ := counterClockwiseSinceLatch_bounds d.mode d.lastRawState
  constructor <;> linarith

/-- Wherever the lines stand they are less than one step factor from a latch point. -/
theorem Decoder.withinDrift.bounds {W : Nat} {d : Decoder W} (h : d.withinDrift) :
    2 ^ modeShift d.mode * d.logicalPosition.toInt - (2 ^ modeShift d.mode - 1) ≤ d.finePosition.toInt ∧
      d.finePosition.toInt ≤ 2 ^ modeShift d.mode * d.logicalPosition.toInt + 2 * (2 ^ modeShift d.mode - 1) := by
  obtain ⟨hlo, hhi⟩ := h
  obtain ⟨_, hcw⟩ := clockwiseSinceLatch_bounds d.mode d.lastRawState
  obtain ⟨_, hccw⟩ := counterClockwiseSinceLatch_bounds d.mode d.lastRawState
  constructor <;> linarith

/-- An arrival at a latch point brings the counter back into the interval; any other valid transition moves the counter
no further than the lines. -/
theorem sampleStep_withinDrift {W : Nat} {raw : RawState} {d : Decoder W}
    (hvalid : noInvalidStep d.lastRawState [raw] = true)
    (hfine : (sampleStep raw d).finePosition.toInt = d.finePosition.toInt + netSteps d.lastRawState [raw])
    (h : d.withinDrift) : (sampleStep raw d).withinDrift := by
  by_cases hraw : raw = d.lastRawState
  · rwa [sampleStep_unchanged hraw]
  cases hp : isLatchPoint d.mode raw with
  | true =>
    have hpos : (0 : Int) < 2 ^ modeShift d.mode := by positivity
    have hl : (sampleStep raw d).logicalPosition.toInt =
        (sampleStep raw d).finePosition.toInt / 2 ^ modeShift d.mode := by
      rw [sampleStep_logicalPosition_of_latchPoint hraw hp, asr_toInt]
    apply Decoder.withinDrift_of_interval <;> rw [sampleStep_mode, hl]
    · exact Int.mul_ediv_self_le hpos.ne'
    · exact Int.le_sub_one_of_lt (Int.lt_mul_ediv_self_add hpos)
  | false =>
    obtain ⟨hup, hdown⟩ := netSteps_le_sinceLatch hvalid hp
    obtain ⟨hlo, hhi⟩ := h
    rw [Decoder.withinDrift, hfine, sampleStep_logicalPosition_of_not_latchPoint hp, sampleStep_mode,
      sampleStep_lastRawState]
    constructor <;> linarith

theorem noInvalidStep_cons (start r : RawState) (raws : List RawState) :
    noInvalidStep start (r :: raws) = (noInvalidStep start [r] && noInvalidStep r raws) := by
  simp [noInvalidStep]

/-- A counter that a step either way does not take out of its range has a width: a width of 0 holds no step. -/
theorem width_pos_of_room {W : Nat} {f n : Int} (hn : 1 ≤ n) (hlo : -2 ^ (W - 1) ≤ f - n) (hhi : f + n < 2 ^ (W - 1)) :
    0 < W := by
  refine Nat.pos_of_ne_zero ?_
  rintro rfl
  rw [Nat.zero_sub, pow_zero] at hlo hhi
  omega

theorem sampleRun_withinDrift {W : Nat} {raws : List RawState} {d : Decoder W}
    (hvalid : noInvalidStep d.lastRawState raws = true)
    (hlo : -2 ^ (W - 1) ≤ d.finePosition.toInt - raws.length)
    (hhi : d.finePosition.toInt + raws.length < 2 ^ (W - 1)) (h : d.withinDrift) :
    (sampleRun raws d).withinDrift := by
  induction raws generalizing d with
  | nil => exact h
  | cons raw raws ih =>
    rw [noInvalidStep_cons, Bool.and_eq_true] at hvalid
    obtain ⟨hstep, hrest⟩ := hvalid
    rw [List.length_cons, Nat.cast_succ] at hlo hhi
    have hfine : (sampleStep raw d).finePosition.toInt = d.finePosition.toInt + netSteps d.lastRawState [raw] :=
      sampleRun_finePosition_toInt (raws := [raw]) (width_pos_of_room (by omega) hlo hhi)
        (by rw [List.length_singleton]; omega) (by rw [List.length_singleton]; omega)
    obtain ⟨hmin, hmax⟩ := netSteps_bounds d.lastRawState [raw]
    rw [List.length_singleton] at hmin hmax
    rw [sampleRun_cons]
    exact ih (by rwa [sampleStep_lastRawState]) (by omega) (by omega) (sampleStep_withinDrift hstep hfine h)

/-- Settles O26: the drift at the end of the run, with the step factor of each mode. -/
theorem countersStayWithinTheDriftBounds : Obligations.CountersStayWithinTheDriftBounds := by
  intro s d pins hd hinterval hinterval' hvalid hlo hhi
  rw [← List.length_map Pins.raw] at hlo hhi
  obtain ⟨t, hrun, hf, hl⟩ := runTrace_samples_registers hd pins
  obtain ⟨hmin, hmax⟩ :=
    (sampleRun_withinDrift hvalid hlo hhi (Decoder.withinDrift_of_interval hinterval hinterval')).bounds
  refine ⟨t, _, _, hrun, hf, hl, ?_⟩
  rw [sampleRun_mode] at hmin hmax
  cases hm : d.mode <;> rw [hm] at hmin hmax <;> simp only [modeShift] at hmin hmax <;> constructor <;> linarith

end Sys2Proof.Machine
end

section
/-! PROOF. Access to the position: the query (R104), the override with its counter for an operand in and out of range
(R106 to R109), and what they, GET_DIRECTION and NOP leave unchanged. -/

namespace Sys2Proof.Machine

/-! The frames. -/

/-- Settles O41: each answered state is such a record update; the snapshot is GET_DIRECTION's one register. -/
theorem queriesAndNopFrame : Obligations.QueriesAndNopFrame := by
  refine ⟨?_, ?_⟩
  · rintro s t i (rfl | rfl) h
    · cases h; exact ⟨_, rfl⟩
    · obtain ⟨d, _, rfl⟩ := getPosition_next h
      exact ⟨_, rfl⟩
  · intro s t h
    obtain ⟨d, hd, rfl⟩ := getDirection_next h
    exact ⟨d, _, hd, rfl⟩

/-- Settles O44: the override updates three registers, and the counter only from the shift up. -/
theorem setPositionFrame : Obligations.SetPositionFrame := by
  intro s t v h
  obtain ⟨d, hd, rfl⟩ := setPosition_next h
  exact ⟨d, _, hd, rfl, overridePosition_lastRawState _ d, overridePosition_mode _ d,
    fun _ => overrideFine_getLsbD_of_lt _ d.finePosition⟩

/-! The query. -/

theorem State.posOut_of_some {s : State} {d : Decoder s.posW} (h : s.decoder = some d) :
    s.posOut = some d.logicalPosition := by
  simp [State.posOut, h]

theorem decode_of_cmdOp_getPosition {W : Nat} {cmd : BitVec (W + 5)} (h : cmdOp cmd = 0b011#3) :
    decode cmd = .getPosition := by
  rw [← cmdWord_fields cmd, h, decode_cmdWord_getPosition]

/-- Settles O29: the query answers the register that `pos_out` carries, and the word is decoded by its `op` alone. -/
theorem getPositionReturnsTheLatchedPosition : Obligations.GetPositionReturnsTheLatchedPosition := fun _ _ hd =>
  ⟨exec_getPosition_of_some hd, State.posOut_of_some hd, fun _ => decode_of_cmdOp_getPosition⟩

/-! The override. -/

@[simp] theorem overridePosition_logicalPosition {W : Nat} (posIn : Word W) (d : Decoder W) :
    (overridePosition posIn d).logicalPosition = posIn := rfl
@[simp] theorem overridePosition_logicalPositionPrev {W : Nat} (posIn : Word W) (d : Decoder W) :
    (overridePosition posIn d).logicalPositionPrev = posIn := rfl

/-- Equal positions are no motion (R111). -/
@[simp] theorem directionOf_self {W : Nat} (v : Word W) : directionOf v v = .noRotation := by
  simp only [directionOf, BitVec.slt_iff_toInt_lt, if_neg (Int.lt_irrefl _)]

theorem decode_of_cmdOp_setPosition {W : Nat} {cmd : BitVec (W + 5)} (h : cmdOp cmd = 0b100#3) :
    decode cmd = .setPosition (cmdPosIn cmd).toInt := by
  rw [← decode_cmdWord_setPosition (cmdPosIn cmd) (cmdModeIn cmd), ← h, cmdWord_fields]

/-- The phase is the counter's bits below the shift (R106). -/
theorem phaseBits_getLsbD {W k j : Nat} (f : Word W) (hj : j < W) :
    (phaseBits k f).getLsbD j = (decide (j < k) && f.getLsbD j) := by
  rw [phaseBits, BitVec.getLsbD_and, BitVec.getLsbD_ofNat, Nat.testBit_two_pow_sub_one, decide_eq_true hj,
    Bool.true_and, Bool.and_comm]

/-- The phase cut out on `k` bits and put back on W bits. -/
theorem phaseBits_eq_setWidth {W : Nat} (k : Nat) (f : Word W) : phaseBits k f = (f.setWidth k).setWidth W := by
  apply BitVec.eq_of_getLsbD_eq
  intro j hj
  rw [phaseBits_getLsbD f hj, BitVec.getLsbD_setWidth, BitVec.getLsbD_setWidth, decide_eq_true hj, Bool.true_and]

/-- Settles O30: the operand on the wires is the signed value of its own bits, and the kept phase is the low bits. -/
theorem setPositionOverridesThePositions : Obligations.SetPositionOverridesThePositions := by
  intro s d cmd k hd hop hk
  have hshift : k = modeShift d.mode := hk
  refine ⟨decode_of_cmdOp_setPosition hop, ?_, directionOf_self _⟩
  rw [exec_setPosition_of_some _ hd, BitVec.ofInt_toInt, ← phaseBits_eq_setWidth, hshift]
  rfl

/-- The snapshot after an override finds both positions equal and changes nothing (R109). -/
theorem snapshot_overridePosition {W : Nat} (posIn : Word W) (d : Decoder W) :
    snapshot (overridePosition posIn d) = overridePosition posIn d := rfl

/-- Settles O32: each of the three operations after the override, on the registers the override wrote. -/
theorem overrideIsReadBackAndNotReported : Obligations.OverrideIsReadBackAndNotReported := by
  intro s d v hd
  refine ⟨_, exec_setPosition_of_some v hd, ?_, ?_, fun hraw => exec_sample_of_unchanged rfl hraw⟩
  · rw [exec_getPosition_of_some rfl, overridePosition_logicalPosition]
  · rw [exec_getDirection_of_some rfl, snapshot_overridePosition, overridePosition_logicalPosition,
      overridePosition_logicalPositionPrev, directionOf_self]

/-! The range of the operand. -/

/-- From the shift up the counter holds the operand's bits after an override (R106). -/
theorem overrideFine_getLsbD_of_le {W k j : Nat} (posIn fine : Word W) (hk : k ≤ j) (hj : j < W) :
    (overrideFine k posIn fine).getLsbD j = posIn.getLsbD (j - k) := by
  have hlow : (phaseBits k fine).getLsbD j = false := by simp [phaseBits_getLsbD fine hj, hk.not_gt]
  have hhigh : (posIn <<< k).getLsbD j = posIn.getLsbD (j - k) := by
    rw [BitVec.getLsbD_shiftLeft, decide_eq_true hj, decide_eq_false hk.not_gt, Bool.not_false, Bool.true_and,
      Bool.true_and]
  rw [overrideFine, BitVec.getLsbD_or, hhigh, hlow, Bool.or_false]

/-- Shifted back, the counter is the operand without its top `k` bits, sign-extended (R107). -/
theorem asr_overrideFine_eq_signExtend {W k : Nat} (hk : k < W) (posIn fine : Word W) :
    asr (overrideFine k posIn fine) k = (posIn.setWidth (W - k)).signExtend W := by
  have hmsb : (overrideFine k posIn fine).msb = (posIn.setWidth (W - k)).msb := by
    rw [BitVec.msb_eq_getLsbD_last, BitVec.msb_eq_getLsbD_last,
      overrideFine_getLsbD_of_le _ _ (by omega) (by omega), BitVec.getLsbD_setWidth]
    simp [show W - k - 1 < W - k by omega, show W - 1 - k = W - k - 1 by omega]
  apply BitVec.eq_of_getLsbD_eq
  intro j hj
  rw [asr, BitVec.getLsbD_sshiftRight, BitVec.getLsbD_signExtend, hmsb]
  by_cases hlow : k + j < W
  · rw [overrideFine_getLsbD_of_le _ _ (by omega) hlow]
    simp [hj, hlow, show j < W - k by omega]
  · simp [hj, hlow, show ¬ j < W - k by omega]

/-- No counter shifts back to a position outside the range of latched values, so an override out of range loses its
operand. -/
theorem asr_ne_of_not_inLatchRange {W k : Nat} {p : Word W} (hk : k < W) (hp : ¬ InLatchRange W k p.toInt)
    (f : Word W) : asr f k ≠ p := by
  rintro rfl
  exact hp (asr_inLatchRange hk f)

/-- Settles O31: in range `overrideFine_toInt` and `asr_overrideFine`; out of range no counter shifts back to the
operand. -/
theorem overrideOperandRange : Obligations.OverrideOperandRange := by
  rintro s d v _ hW hd hv rfl
  have hk := modeShift_lt_of_minPosW_le hW d.mode
  have hposIn : (BitVec.ofInt s.posW v).toInt = v := toInt_ofInt_of_wf (Nat.zero_lt_of_lt hk) hv
  refine ⟨_, exec_setPosition_of_some v hd, hposIn, hposIn, asr_overrideFine_eq_signExtend hk _ _, ?_, ?_⟩
  · exact fun hin => ⟨overridePosition_finePosition_toInt hk hin, asr_overrideFine hk hin _⟩
  · exact fun hout => asr_ne_of_not_inLatchRange hk (by rwa [overridePosition_logicalPosition, hposIn]) _

end Sys2Proof.Machine
end

section
/-! PROOF. GET_DIRECTION: the signed comparison with its code on `dir_out` and the snapshot (R111), and that a direction
is reported once (R112). -/

namespace Sys2Proof.Machine

/-! The comparison and the port. -/

/-- The three comparisons of R111 name the Direction. -/
theorem directionOf_of_compare {W : Nat} {prev logical : Word W} {x : Direction}
    (h : (prev.toInt > logical.toInt ∧ x = .counterClockwise) ∨ (prev.toInt < logical.toInt ∧ x = .clockwise) ∨
      (prev.toInt = logical.toInt ∧ x = .noRotation)) : directionOf prev logical = x := by
  obtain ⟨hgt, rfl⟩ | ⟨hlt, rfl⟩ | ⟨heq, rfl⟩ := h
  · exact directionOf_of_gt hgt
  · exact directionOf_of_lt hlt
  · rw [BitVec.eq_of_toInt_eq heq, directionOf_self]

theorem decode_of_cmdOp_getDirection {W : Nat} {cmd : BitVec (W + 5)} (h : cmdOp cmd = 0b101#3) :
    decode cmd = .getDirection := by
  rw [← cmdWord_fields cmd, h, decode_cmdWord_getDirection]

theorem dirOut_of_getDirection {s : State} {d : Decoder s.posW} (hr : s.ports.rst = false)
    (hf : fetch s = .getDirection) (hd : s.decoder = some d) :
    dirOut s = some (directionBits (directionOf d.logicalPositionPrev d.logicalPosition)) := by
  simp [dirOut, hr, hf, hd]

/-- Settles O33: `x` is the `directionOf` that the query returns and whose code `dir_out` carries. -/
theorem getDirectionComparesAndSnapshots : Obligations.GetDirectionComparesAndSnapshots := by
  intro s d x hd hx
  obtain rfl := directionOf_of_compare hx
  exact ⟨exec_getDirection_of_some hd,
    fun hr hop => dirOut_of_getDirection hr (decode_of_cmdOp_getDirection hop) hd,
    fun _ => decode_of_cmdOp_getDirection⟩

/-! Once per change. -/

/-- A query while the two positions are equal returns NoRotation and writes no register: its snapshot changes nothing
(R111, R112). -/
theorem exec_getDirection_of_logical_eq_prev {s : State} (hc : s.constructed = true) (h : s.logical = s.prev) :
    exec .getDirection s = .next { s with result := .direction .noRotation } := by
  obtain ⟨d, hd⟩ := exists_decoder_of_constructed hc
  have heq : d.logicalPosition = d.logicalPositionPrev :=
    BitVec.eq_of_toInt_eq (by simpa [State.logical, State.prev, hd] using h)
  have hsnap : snapshot d = d := congrArg (fun v => { d with logicalPositionPrev := v }) heq
  rw [exec_getDirection_of_some hd, hsnap, heq, directionOf_self, ← hd]

/-- Any query leaves the two positions equal (R112). -/
theorem getDirection_next_logical_eq_prev {s t : State} (h : exec .getDirection s = .next t) : t.logical = t.prev := by
  obtain ⟨d, _, rfl⟩ := getDirection_next h
  rfl

/-- Settles O34: the first query leaves the two positions equal, and a query on equal positions returns NoRotation. -/
theorem directionIsReportedOnce : Obligations.DirectionIsReportedOnce := by
  intro s hc
  obtain ⟨d, hd⟩ := exists_decoder_of_constructed hc
  have ht := exec_getDirection_of_some hd
  have heq := getDirection_next_logical_eq_prev ht
  exact ⟨_, ht, exec_getDirection_of_logical_eq_prev (exec_next_constructed hc ht) heq,
    fun _ huc hl hp => exec_getDirection_of_logical_eq_prev huc (hl.trans (heq.trans hp.symm))⟩

end Sys2Proof.Machine
end

section
/-! PROOF. NOP and the reserved codes (R118 to R120): what they do in every state, and that NOP steps before another step
leave its outcome alone. -/

namespace Sys2Proof.Machine

/-! Every state, every word. -/

theorem decode_of_cmdOp_nop {W : Nat} {cmd : BitVec (W + 5)} (h : cmdOp cmd = 0b000#3) : decode cmd = .nop := by
  rw [← cmdWord_fields cmd, h, decode_cmdWord_nop]

/-- Settles O1: the one field NOP writes is the returned value, and the word is decoded by its `op` alone. -/
theorem nopWritesNothing : Obligations.NopWritesNothing := fun _ =>
  ⟨rfl, rfl, fun _ => decode_of_cmdOp_nop⟩

theorem decode_of_cmdOp_reserved {W : Nat} {cmd : BitVec (W + 5)} (h : cmdOp cmd = 0b110#3 ∨ cmdOp cmd = 0b111#3) :
    decode cmd = .reserved6 ∨ decode cmd = .reserved7 := by
  obtain h | h := h <;> rw [← cmdWord_fields cmd, h]
  · exact .inl (decode_cmdWord_reserved6 _ _)
  · exact .inr (decode_cmdWord_reserved7 _ _)

/-- Settles O2: the two rows refuse without looking at the state, and a word with either code decodes to one of them. -/
theorem reservedCodesAreRefused : Obligations.ReservedCodesAreRefused := by
  refine fun s => ⟨rfl, rfl, fun cmd h => ?_⟩
  obtain h | h := decode_of_cmdOp_reserved h <;> rw [h] <;> rfl

/-! NOP steps before another step. The only trace of a NOP is the returned value, which every step writes anew. -/

/-- Put another returned value into the state. -/
def State.withResult (s : State) (r : Result s.posW) : State := { s with result := r }

/-- The guard on `constructed` does not read what the step before returned. -/
theorem whenConstructed_withResult {s : State} {r : Result s.posW}
    {k : Decoder s.posW → Host.Outcome State Fault Refusal}
    {k' : Decoder (s.withResult r).posW → Host.Outcome State Fault Refusal} (hk : ∀ d, k' d = k d) :
    whenConstructed (s.withResult r) k' = whenConstructed s k := by
  cases hd : s.decoder with
  | none => rw [whenConstructed_of_none hd]; exact whenConstructed_of_none (s := s.withResult r) hd
  | some d => rw [whenConstructed_of_some hd]; exact (whenConstructed_of_some (s := s.withResult r) hd).trans (hk d)

theorem execConstruct_withResult (m : BitVec 2) (s : State) (r : Result s.posW) :
    execConstruct m (s.withResult r) = execConstruct m s := by
  obtain ⟨_, _ | d, _, _, _⟩ := s
  · unfold execConstruct; cases modeOfBits m <;> rfl
  · rfl

/-- No operation reads what the step before it returned, and each writes its own (R155). -/
theorem exec_withResult (i : Instr) (s : State) (r : Result s.posW) : exec i (s.withResult r) = exec i s := by
  cases i
  case nop => rfl
  case construct m => exact execConstruct_withResult m s r
  case reserved6 => rfl
  case reserved7 => rfl
  -- SAMPLE, GET_POSITION, SET_POSITION, GET_DIRECTION and the entries of the table
  all_goals exact whenConstructed_withResult fun _ => rfl

theorem step_withResult (s : State) (r : Result s.posW) : step (s.withResult r) = step s := by
  cases hr : s.ports.rst with
  | true => exact (step_of_rst (s := s.withResult r) hr).trans (step_of_rst hr).symm
  | false =>
    calc step (s.withResult r)
      _ = mapNext takePorts (exec (fetch s) (s.withResult r)) := step_eq_mapNext hr
      _ = step s := by rw [exec_withResult, step_eq_mapNext hr]

/-- A run of at least one step sees its first state only through the first step. -/
theorem run_succ_congr {M : Host.Core} {s t : M.State} (n : Nat) (h : M.step s = M.step t) :
    M.run (n + 1) s = M.run (n + 1) t := by
  rw [Host.Core.run, h, Host.Core.run]

theorem runTrace_cons_withResult (l : TraceLine) (ls : List TraceLine) (s : State) (r : Result s.posW) :
    runTrace (l :: ls) (s.withResult r) = runTrace (l :: ls) s :=
  run_succ_congr (M := Sys2Proof.core) ls.length (step_withResult (s.feed (l :: ls)) r)

theorem runTrace_replicate_nop_append (n : Nat) (l : TraceLine) (ls : List TraceLine) (s : State) :
    runTrace (List.replicate n .nop ++ l :: ls) s = runTrace (l :: ls) s := by
  induction n generalizing s with
  | zero => rfl
  | succ n ih =>
    rw [List.replicate_succ, List.cons_append, runTrace_nop, ih]
    exact runTrace_cons_withResult l ls s .nothing

/-- Settles O7: after the NOP lines one more line runs from a state with another returned value at most. -/
theorem nopStepsDoNotMatter : Obligations.NopStepsDoNotMatter := fun s n line =>
  runTrace_replicate_nop_append n line [] s

end Sys2Proof.Machine
end

section
/-! PROOF. The refusals (R120, R121, R130): for each row and each value of `constructed` the reason it is refused with,
or that it completes; and from there when a step completes, and which reason a refused one gives. -/

namespace Sys2Proof.Machine

/-! Without a decoder (R121). -/

theorem State.posOut_of_none {s : State} (h : s.decoder = none) : s.posOut = none := by
  simp [State.posOut, h]

theorem dirOut_of_none {s : State} (h : s.decoder = none) : dirOut s = none := by
  simp [dirOut, h]

/-- Settles O3: the guard on `constructed` refuses the four operations; NOP, CONSTRUCT and reset are not under it. -/
theorem unconstructedDecoderRefusesItsOperations : Obligations.UnconstructedDecoderRefusesItsOperations := by
  intro s hs
  have hnone := decoder_eq_none_of_not_constructed hs
  exact ⟨whenConstructed_of_none hnone, whenConstructed_of_none hnone, fun _ => whenConstructed_of_none hnone,
    whenConstructed_of_none hnone, State.posOut_of_none hnone, dirOut_of_none hnone, ⟨_, rfl⟩,
    fun _ => exists_exec_construct_next hnone, _, step_of_rst rfl⟩

/-! The reason a row is refused with, tied to the machine by `exec_refusedBy` and `step_refusedBy`. -/

/-- The reason a row is refused with, by the register `constructed`; `none` where it completes (R130). CONSTRUCT's two
reasons stand in the order of R129 (g). -/
def refusalReason (constructed : Bool) : Instr → Option Refusal
  | .nop => none
  | .construct modeIn =>
    if constructed then some .alreadyConstructed else if modeIn = 0b00#2 then some .reservedMode else none
  | .reserved6 | .reserved7 => some .reservedOp
  | _ => if constructed then none else some .notConstructed

/-- The outcome is the refusal with this reason, or a next state where there is no reason. -/
def RefusedBy (o : Host.Outcome State Fault Refusal) : Option Refusal → Prop
  | some r => o = .refused r
  | none => ∃ t, o = .next t

theorem RefusedBy.refused_iff {o : Host.Outcome State Fault Refusal} {x : Option Refusal} (h : RefusedBy o x)
    (r : Refusal) : o = .refused r ↔ x = some r := by
  cases x with
  | none => obtain ⟨t, rfl⟩ := h; simp
  | some r' => obtain rfl := h; simp

theorem RefusedBy.next_iff {o : Host.Outcome State Fault Refusal} {x : Option Refusal} (h : RefusedBy o x) :
    (∃ t, o = .next t) ↔ x = none := by
  cases x with
  | none => exact iff_of_true h rfl
  | some r => obtain rfl := h; simp

theorem refusedBy_mapNext (f : State → State) {o : Host.Outcome State Fault Refusal} {x : Option Refusal}
    (h : RefusedBy o x) : RefusedBy (mapNext f o) x := by
  cases x with
  | none => obtain ⟨t, rfl⟩ := h; exact ⟨_, rfl⟩
  | some r => obtain rfl := h; rfl

/-- 00 is the one code without a mode (R15). -/
theorem modeOfBits_eq_none_iff (m : BitVec 2) : modeOfBits m = none ↔ m = 0b00#2 := by
  revert m; decide

theorem exec_construct_refusedBy (m : BitVec 2) (s : State) :
    RefusedBy (exec (.construct m) s) (refusalReason s.constructed (.construct m)) := by
  cases hc : s.constructed with
  | true => exact exec_construct_of_constructed m hc
  | false =>
    have hnone := decoder_eq_none_of_not_constructed hc
    cases hm : modeOfBits m with
    | none =>
      obtain rfl := (modeOfBits_eq_none_iff m).mp hm
      exact exec_construct_of_reserved hnone hm
    | some mode =>
      have hne : m ≠ 0b00#2 := by rintro rfl; cases hm
      simp only [refusalReason, if_neg hne]
      exact ⟨_, exec_construct_of_none hnone hm⟩

/-- A guarded operation that answers on every decoder is refused by its guard alone (R121). -/
theorem whenConstructed_refusedBy (s : State) (f : Decoder s.posW → State) :
    RefusedBy (whenConstructed s fun d => .next (f d)) (if s.constructed then none else some .notConstructed) := by
  cases hd : s.decoder with
  | none => simp [whenConstructed_of_none hd, State.constructed, hd, RefusedBy]
  | some d => simp [whenConstructed_of_some hd, State.constructed, hd, RefusedBy]

theorem exec_refusedBy (i : Instr) (s : State) : RefusedBy (exec i s) (refusalReason s.constructed i) := by
  cases i
  case nop => exact ⟨_, rfl⟩
  case construct m => exact exec_construct_refusedBy m s
  case reserved6 => rfl
  case reserved7 => rfl
  -- SAMPLE, GET_POSITION, SET_POSITION, GET_DIRECTION and the entries of the table
  all_goals exact whenConstructed_refusedBy s _

theorem step_refusedBy {s : State} (hr : s.ports.rst = false) :
    RefusedBy (step s) (refusalReason s.constructed (fetch s)) := by
  rw [step_eq_mapNext hr]
  exact refusedBy_mapNext takePorts (exec_refusedBy (fetch s) s)

/-! When a step completes. -/

theorem isSome_modeOfBits_iff (m : BitVec 2) : (modeOfBits m).isSome = true ↔ m ≠ 0b00#2 := by
  rw [Option.isSome_iff_ne_none, ne_eq, modeOfBits_eq_none_iff]

theorem admitted_of_rst {s : State} (hr : s.ports.rst = true) : admitted s = true := by
  simp [admitted, hr]

/-- Without reset the admitted inputs are those that no reason refuses (R130, R140). -/
theorem admitted_iff_refusalReason {s : State} (hr : s.ports.rst = false) :
    admitted s = true ↔ refusalReason s.constructed (fetch s) = none := by
  rw [admitted, hr, Bool.false_or]
  cases fetch s
  case construct m => cases s.constructed <;> simp [refusalReason, isSome_modeOfBits_iff]
  -- every other row, by `constructed` alone
  all_goals simp [refusalReason]

/-- Settles O5: reset always completes, and otherwise a step completes exactly when there is no reason to refuse it. -/
theorem stepCompletesExactlyWhenAdmitted : Obligations.StepCompletesExactlyWhenAdmitted := by
  intro s
  cases hr : s.ports.rst with
  | true => exact iff_of_true ⟨_, step_of_rst hr⟩ (admitted_of_rst hr)
  | false => rw [(step_refusedBy hr).next_iff, admitted_iff_refusalReason hr]

/-! Which reason a refused step gives. -/

/-- Settles O6: the reason of `step_refusedBy`, for each of the eight values of `op` in the word's fields. -/
theorem refusalReasonsAndTheirOrder : Obligations.RefusalReasonsAndTheirOrder := by
  intro s hr
  simp only [(step_refusedBy hr).refused_iff, fetch]
  obtain ⟨posIn, modeIn, op, hcmd⟩ : ∃ posIn modeIn op, s.ports.cmd = cmdWord posIn modeIn op :=
    ⟨_, _, _, (cmdWord_fields s.ports.cmd).symm⟩
  rw [hcmd, cmdOp_cmdWord, cmdModeIn_cmdWord]
  rcases op_cases op with rfl | rfl | rfl | rfl | rfl | rfl | rfl | rfl
  · simp [refusalReason]
  · cases s.constructed <;> simp [refusalReason]
  -- SAMPLE, GET_POSITION, SET_POSITION and GET_DIRECTION, each refused by the guard alone
  iterate 4 · cases s.constructed <;> simp [refusalReason]
  -- the two reserved codes
  iterate 2 · simp [refusalReason]

end Sys2Proof.Machine
end

section
/-! PROOF. What is left of reset (R139), of the table's entries without a decoder (log entry 6), and of steps missed
between two SAMPLEs (R146). -/

namespace Sys2Proof.Machine

/-! Steps missed between two SAMPLEs (R146). SAMPLE sees only the first and the last RawState of the walk, which closes
after four steps: three steps one way end where one step the other way does, and two or four count nothing. -/

/-- The count that the table gives the two ends of a clockwise walk of `n` steps, up to four (R146). -/
def missedCount (n : Nat) : Int := if n = 1 then 1 else if n = 3 then -1 else 0

theorem romRead_clockwiseWalk_toInt (r : RawState) {n : Nat} (hn : n ≤ 4) :
    (romRead (transitionIndex r (finalRaw r (clockwiseWalk r n)))).toInt = missedCount n := by
  revert r
  interval_cases n <;> decide

/-- Counter-clockwise, `n` steps end where the clockwise steps that complete the cycle do (R92). -/
theorem finalRaw_counterClockwiseWalk (r : RawState) {n : Nat} (hn : n ≤ 4) :
    finalRaw r (counterClockwiseWalk r n) = finalRaw r (clockwiseWalk r (4 - n)) := by
  revert r
  interval_cases n <;> decide

theorem missedCount_four_sub {n : Nat} (hn : n ≤ 4) : missedCount (4 - n) = -missedCount n := by
  interval_cases n <;> rfl

theorem romRead_counterClockwiseWalk_toInt (r : RawState) {n : Nat} (hn : n ≤ 4) :
    (romRead (transitionIndex r (finalRaw r (counterClockwiseWalk r n)))).toInt = -missedCount n := by
  rw [finalRaw_counterClockwiseWalk r hn, romRead_clockwiseWalk_toInt r (Nat.sub_le 4 n), missedCount_four_sub hn]

/-- SAMPLE counts the number that the table's word for the pair stands for. -/
theorem exec_sample_counts {s : State} {d : Decoder s.posW} {v : Int} (hd : s.decoder = some d)
    (hv : (romRead (transitionIndex d.lastRawState s.ports.pins.raw)).toInt = v) :
    ∃ d' : Decoder s.posW, exec .sample s = .next { s with decoder := some d', result := .nothing } ∧
      d'.finePosition = d.finePosition + BitVec.ofInt s.posW v :=
  ⟨_, exec_sample_of_some hd, by rw [sampleStep_finePosition, sextWord_eq_ofInt, hv]⟩

/-- Settles O22: the count of the pair that the walk's two ends form. -/
theorem missedStepsAreMiscounted : Obligations.MissedStepsAreMiscounted := by
  rintro s d n seen hd - hn (rfl : seen = missedCount n)
  refine ⟨fun hraw => ?_, fun hraw => ?_⟩
  · exact exec_sample_counts hd (hraw ▸ romRead_clockwiseWalk_toInt d.lastRawState hn)
  · rw [BitVec.sub_eq_add_neg, ← BitVec.ofInt_neg]
    exact exec_sample_counts hd (hraw ▸ romRead_counterClockwiseWalk_toInt d.lastRawState hn)

/-! Reset (R139). -/

/-- Settles O53: the reset transition of `step_of_rst` is that record update, and the state after power-up has nothing for
it to clear. -/
theorem resetWinsOverTheOperation : Obligations.ResetWinsOverTheOperation :=
  ⟨fun _ => step_of_rst, fun _ => ⟨rfl, rfl⟩⟩

/-! The table's entries without a decoder (log entry 6). -/

/-- Every index selects an entry, whose only reason to be refused is the missing decoder. -/
theorem refusalReason_decodeRom (idx : TransitionIndex) :
    refusalReason false (decodeRom idx) = some .notConstructed := by
  revert idx; decide

/-- Settles O4: an entry is refused with the reason that `exec_refusedBy` gives it. -/
theorem romEntriesNeedADecoder : Obligations.RomEntriesNeedADecoder := by
  intro s idx hs
  rw [(exec_refusedBy (decodeRom idx) s).refused_iff, hs]
  exact refusalReason_decodeRom idx

end Sys2Proof.Machine
end
